-- ==== Sys2Proof/Word.lean ====
section
/-! DEFINITION. The word types of the CSI frame engine (spec 00_scope R8, 10_state R20). -/

namespace Sys2Proof

/-- A byte, `u8` (R8). -/
abbrev Byte := BitVec 8

/-- A 16-bit unsigned value, `u16` (R8): lengths and sample counts. -/
abbrev Half := BitVec 16

/-- A clock reading in milliseconds, `u64` (R79, R218). -/
abbrev Time := BitVec 64

/-- A SourceId packed into 48 bits, byte 0 in bits 47:40 (R55); only equality is computed on it. -/
abbrev SourceId := BitVec 48

/-- A count of `RATE_COUNT_BITS = 32` (R28) or `REJ_COUNT_BITS = 32` (R32) bits. -/
abbrev Count := BitVec 32

/-- The suggested 7-bit selector key of R91. -/
abbrev Key := BitVec 7

end Sys2Proof
end

