-- ==== Sys2Proof/Config.lean ====
section
/-! DEFINITION. The configuration, the implementation parameters the spec leaves OPEN, the input events, and the
inputs of the operation selection's comparators. -/

namespace Sys2Proof

/-- `LINE_TERM`, the fixed line terminator (00_scope R7). -/
abbrev lineTerm : Byte := 0x0A

/-- `HEADER_LEN` (00_scope R7). -/
abbrev headerLen : Nat := 16

/-- `SOURCE_ID_LEN` (00_scope R7). -/
abbrev sourceIdLen : Nat := 6

/-- One entry of the allow-list CAM (10_state R33, R34). -/
structure CamEntry where
  valid : Bool
  id : SourceId
deriving DecidableEq, Repr

/-- The configuration registers `CFG_*` (00_scope R7, 10_state R33). -/
structure Config where
  /-- `CFG_MARKER`. -/
  marker : Byte
  /-- `CFG_MIN`. -/
  minPayload : Half
  /-- `CFG_MAX`. -/
  maxPayload : Half
  /-- `CFG_TIMEOUT`: handed to the Byte Source, read by no operation (R219). -/
  readTimeoutMs : Nat
  /-- `CFG_WINDOW`. -/
  rateWindowMs : Nat
  /-- `CFG_ALLOW[k]`. -/
  allow : List CamEntry
deriving DecidableEq, Repr

/-- The defaults of 00_scope R7; the allow-list has none, and is empty here (log entry 5). -/
def Config.default : Config :=
  { marker := 0xA5, minPayload := 16, maxPayload := 512, readTimeoutMs := 100, rateWindowMs := 1000, allow := [] }

/-- The capacities an implementation fixes and the spec leaves OPEN (92_eei_decisions D17, D34); `none` is the
unbounded store of the spec's model (log entry 4). -/
structure Impl where
  /-- `ALLOW_CAPACITY`. -/
  allowCapacity : Option Nat
  /-- `PBUF_CAPACITY`. -/
  pbufCapacity : Option Nat
deriving DecidableEq, Repr

/-- The input alphabet (30_encoding R79): every event carries `now`. -/
inductive Event
  | start (cfg : Config) (now : Time)
  | byte (b : Byte) (now : Time)
  | timeout (now : Time)
  | stopReq (now : Time)
  | fail (now : Time)
deriving DecidableEq, Repr

/-- What the conditions of 30_encoding R82 compare a byte with: the three configuration registers and `len[7:0]`. -/
structure SelCtx where
  marker : Byte
  minPayload : Half
  maxPayload : Half
  lenLo : Byte
deriving DecidableEq, Repr

end Sys2Proof
end

