-- ==== Sys2Proof/Machine/Bytes.lean ====
section
/-! DEFINITION. The pure primitives of 00_scope R10: byte order, signs, the exclusive-or checksum, SourceId packing. -/

namespace Sys2Proof

/-- The number whose base-256 digits, least significant first, are `s` (20_memory R54). -/
def leNat : List Byte → Nat
  | [] => 0
  | b :: s => b.toNat + 256 * leNat s

/-- The `k` low base-256 digits of `v`, least significant first. -/
def leBytes : Nat → Nat → List Byte
  | 0, _ => []
  | k + 1, v => BitVec.ofNat 8 v :: leBytes k (v / 256)

/-- `le16` (00_scope R10), for a sequence of two bytes. -/
def le16 (s : List Byte) : Half := BitVec.ofNat 16 (leNat s)

/-- `le64` (00_scope R10), for a sequence of eight bytes. -/
def le64 (s : List Byte) : Time := BitVec.ofNat 64 (leNat s)

/-- `s8` (00_scope R10): the two's-complement reading of a byte. -/
def s8 (b : Byte) : Int := if b.toNat < 128 then (b.toNat : Int) else (b.toNat : Int) - 256

/-- `u8of` (30_encoding R89): `x` if `x >= 0`, else `x + 256`. -/
def u8of (x : Int) : Byte := BitVec.ofNat 8 (if 0 ≤ x then x else x + 256).toNat

/-- The range of an `i8` (00_scope R8). -/
def isI8 (x : Int) : Bool := decide (-128 ≤ x ∧ x ≤ 127)

/-- `xor8` (00_scope R10): the exclusive-or of all bytes; `0x00` of none. -/
def xor8 (s : List Byte) : Byte := s.foldl (fun a b => a ^^^ b) 0

/-- `zext_N` (00_scope R10). -/
def zext {w : Nat} (n : Nat) (v : BitVec w) : BitVec n := v.zeroExtend n

/-- `sext_N` (00_scope R10); used by no rule. -/
def sext {w : Nat} (n : Nat) (v : BitVec w) : BitVec n := v.signExtend n

/-- `s[a..b)` (00_scope R9). -/
def slice (s : List Byte) (a b : Nat) : List Byte := (s.drop a).take (b - a)

/-- Six raw bytes packed into a SourceId, byte 0 most significant (20_memory R55). -/
def packSource (s : List Byte) : SourceId := BitVec.ofNat 48 (leNat s.reverse)

/-- The six raw bytes of a SourceId, byte 0 first (20_memory R55, 30_encoding R77). -/
def sourceBytes (x : SourceId) : List Byte := (leBytes sourceIdLen x.toNat).reverse

/-- `MIN_PAYLOAD <= L <= MAX_PAYLOAD`, unsigned, both ends included (40_scanner R108). -/
def lenInBounds (lo hi l : Half) : Bool := decide (lo.toNat ≤ l.toNat ∧ l.toNat ≤ hi.toNat)

/-- `L = len[7:0] + 256 * b` (40_scanner R108, 30_encoding R73). -/
def lenOf (lo b : Byte) : Half := le16 [lo, b]

end Sys2Proof
end

