-- ==== Sys2Proof/Syntax.lean ====
section
/-! DEFINITION. The instructions: one constructor per row of spec/opcode_table.json, in the table's order. -/

namespace Sys2Proof

/-- The 23 event-selected operations (30_encoding R82), the 5 internal procedures, the 3 wire formats (R70, R71, R78)
and the 5 input events (R79). An operation carries the fields of the event that selects it. -/
inductive Instr
  /-- `START` (44_system R175). -/
  | start (cfg : Config) (now : Time)
  /-- `NOP.IDLE` (44_system R180): any event but START outside a session. -/
  | nopIdle (e : Event)
  /-- `FAIL` (44_system R179). -/
  | fail (now : Time)
  /-- `STOP.NOW` (44_system R176). -/
  | stopNow (now : Time)
  /-- `STOP.PEND` (44_system R177). -/
  | stopPend (now : Time)
  /-- `HUNT.MARKER` (40_scanner R100). -/
  | huntMarker (b : Byte) (now : Time)
  /-- `HUNT.EOL` (40_scanner R102). -/
  | huntEol (b : Byte) (now : Time)
  /-- `HUNT.TEXT` (40_scanner R101). -/
  | huntText (b : Byte) (now : Time)
  /-- `HUNT.TIMEOUT` (40_scanner R103). -/
  | huntTimeout (now : Time)
  /-- `LINE.EOL` (40_scanner R105). -/
  | lineEol (b : Byte) (now : Time)
  /-- `LINE.TEXT` (40_scanner R104). -/
  | lineText (b : Byte) (now : Time)
  /-- `LINE.TIMEOUT` (40_scanner R106). -/
  | lineTimeout (now : Time)
  /-- `LEN.LO` (40_scanner R107). -/
  | lenLo (b : Byte) (now : Time)
  /-- `LEN0.TIMEOUT` (40_scanner R110). -/
  | len0Timeout (now : Time)
  /-- `LEN.HI` (40_scanner R108). -/
  | lenHi (b : Byte) (now : Time)
  /-- `LEN.HI.OOB` (40_scanner R109). -/
  | lenHiOob (b : Byte) (now : Time)
  /-- `LEN1.TIMEOUT` (40_scanner R111). -/
  | len1Timeout (now : Time)
  /-- `PAY.BYTE` (40_scanner R112). -/
  | payByte (b : Byte) (now : Time)
  /-- `PAY.TIMEOUT` (40_scanner R113). -/
  | payTimeout (now : Time)
  /-- `CHK.BYTE` (41_decoder R136). -/
  | chkByte (b : Byte) (now : Time)
  /-- `CHK.TIMEOUT` (40_scanner R114). -/
  | chkTimeout (now : Time)
  /-- `SKIP.BYTE` (40_scanner R115). -/
  | skipByte (b : Byte) (now : Time)
  /-- `SKIP.TIMEOUT` (40_scanner R116). -/
  | skipTimeout (now : Time)
  /-- `DECODE` (41_decoder R130). -/
  | decode (payload : List Byte) (checksum : Byte) (now : Time)
  /-- `FILTER` (42_filter R150). -/
  | filter (source : SourceId)
  /-- `METER.INC` (43_rate_meter R161). -/
  | meterInc (source : SourceId)
  /-- `METER.FLUSH` (43_rate_meter R162). -/
  | meterFlush (now : Time)
  /-- `END_ATTEMPT` (40_scanner R117). -/
  | endAttempt (now : Time)
  /-- `FRAME` (30_encoding R70): a frame on the wire; its length field is the payload's length. -/
  | frame (payload : List Byte) (checksum : Byte) (now : Time)
  /-- `PAYLOAD` (30_encoding R71): a payload on the wire; its sample count is the samples' number. -/
  | payload (source : SourceId) (deviceTs : Time) (samples : List Int) (now : Time)
  /-- `TEXTLINE` (30_encoding R78): a diagnostic line, ended by `0x0A` when `terminated`, else by a TIMEOUT. -/
  | textLine (first : Byte) (text : List Byte) (terminated : Bool) (now : Time)
  /-- `EV.START` (30_encoding R79). -/
  | evStart (cfg : Config) (now : Time)
  /-- `EV.BYTE` (30_encoding R79). -/
  | evByte (b : Byte) (now : Time)
  /-- `EV.TIMEOUT` (30_encoding R79). -/
  | evTimeout (now : Time)
  /-- `EV.STOP_REQ` (30_encoding R79). -/
  | evStopReq (now : Time)
  /-- `EV.FAIL` (30_encoding R79). -/
  | evFail (now : Time)
deriving DecidableEq, Repr

end Sys2Proof
end

