-- ==== Sys2Proof/WellFormed.lean ====
section
/-! DEFINITION. Which instructions are well formed: an operation carries a byte that meets the condition it is selected
by (30_encoding R82); a wire row carries fields its pattern can hold. -/

namespace Sys2Proof

/-- No START reaches `NOP.IDLE` (44_system R180). -/
def Event.isStart : Event → Bool
  | .start _ _ => true
  | _ => false

/-- Well-formedness under the comparator inputs `ctx`. -/
def Instr.wellFormed (ctx : SelCtx) : Instr → Bool
  | .start _ _ => true
  | .nopIdle e => !e.isStart
  | .fail _ => true
  | .stopNow _ => true
  | .stopPend _ => true
  | .huntMarker b _ => b == ctx.marker
  | .huntEol b _ => b == lineTerm && b != ctx.marker
  | .huntText b _ => b != ctx.marker && b != lineTerm
  | .huntTimeout _ => true
  | .lineEol b _ => b == lineTerm
  | .lineText b _ => b != lineTerm
  | .lineTimeout _ => true
  | .lenLo _ _ => true
  | .len0Timeout _ => true
  | .lenHi b _ => lenInBounds ctx.minPayload ctx.maxPayload (lenOf ctx.lenLo b)
  | .lenHiOob b _ => !lenInBounds ctx.minPayload ctx.maxPayload (lenOf ctx.lenLo b)
  | .len1Timeout _ => true
  | .payByte _ _ => true
  | .payTimeout _ => true
  | .chkByte _ _ => true
  | .chkTimeout _ => true
  | .skipByte _ _ => true
  | .skipTimeout _ => true
  | .decode p _ _ => decide (p.length < 65536)
  | .filter _ => true
  | .meterInc _ => true
  | .meterFlush _ => true
  | .endAttempt _ => true
  | .frame p _ _ => decide (p.length < 65536)
  | .payload _ _ v _ => decide (v.length < 65536) && v.all isI8
  | .textLine x ys t _ =>
    x != ctx.marker && ys.all (· != lineTerm) && (x != lineTerm || (ys.isEmpty && t))
  | .evStart _ _ => true
  | .evByte _ _ => true
  | .evTimeout _ => true
  | .evStopReq _ => true
  | .evFail _ => true

/-- The configuration an image's START field stands for is the one presented with it (log entry 6). -/
def Instr.cfgFits (cfgIn : Config) : Instr → Bool
  | .start cfg _ => decide (cfg = cfgIn)
  | .evStart cfg _ => decide (cfg = cfgIn)
  | _ => true

end Sys2Proof
end

