-- ==== Sys2Proof/Decode.lean ====
section
/-! DEFINITION. The operation table of spec/opcode_table.json and the selection it makes (30_encoding R90, R91), the
decoder of instruction images, and after it the encoder (R70, R71, R78, R79, R89). -/

namespace Sys2Proof

/-! ### Selection by the table -/

/-- The 23 OP rows' names. -/
inductive OpName
  | start | nopIdle | fail | stopNow | stopPend | huntMarker | huntEol | huntText | huntTimeout | lineEol | lineText
  | lineTimeout | lenLo | len0Timeout | lenHi | lenHiOob | len1Timeout | payByte | payTimeout | chkByte | chkTimeout
  | skipByte | skipTimeout
deriving DecidableEq, Repr

/-- The `condition` column of the OP rows. -/
inductive Cond
  | none | isMarker | isEol | isText | isTerm | notTerm | inBounds | outOfBounds
deriving DecidableEq, Repr

/-- One OP row: `key AND mask = pattern`, and the condition. -/
structure OpRow where
  op : OpName
  pattern : Key
  mask : Key
  cond : Cond
deriving DecidableEq, Repr

/-- The OP rows in the table's order, which is the test order of R90. -/
def opTable : List OpRow :=
  [ ⟨.start, 0x00, 0x07, .none⟩, ⟨.nopIdle, 0x00, 0x40, .none⟩, ⟨.fail, 0x44, 0x47, .none⟩,
    ⟨.stopNow, 0x43, 0x7F, .none⟩, ⟨.stopPend, 0x43, 0x47, .none⟩ ] ++
  [ ⟨.huntMarker, 0x41, 0x7F, .isMarker⟩, ⟨.huntEol, 0x41, 0x7F, .isEol⟩, ⟨.huntText, 0x41, 0x7F, .isText⟩,
    ⟨.huntTimeout, 0x42, 0x7F, .none⟩ ] ++
  [ ⟨.lineEol, 0x49, 0x7F, .isTerm⟩, ⟨.lineText, 0x49, 0x7F, .notTerm⟩, ⟨.lineTimeout, 0x4A, 0x7F, .none⟩ ] ++
  [ ⟨.lenLo, 0x51, 0x7F, .none⟩, ⟨.len0Timeout, 0x52, 0x7F, .none⟩, ⟨.lenHi, 0x59, 0x7F, .inBounds⟩,
    ⟨.lenHiOob, 0x59, 0x7F, .outOfBounds⟩, ⟨.len1Timeout, 0x5A, 0x7F, .none⟩ ] ++
  [ ⟨.payByte, 0x61, 0x7F, .none⟩, ⟨.payTimeout, 0x62, 0x7F, .none⟩, ⟨.chkByte, 0x69, 0x7F, .none⟩,
    ⟨.chkTimeout, 0x6A, 0x7F, .none⟩, ⟨.skipByte, 0x71, 0x7F, .none⟩, ⟨.skipTimeout, 0x72, 0x7F, .none⟩ ]

/-- The conditions of R82, on the event's byte `b`. -/
def Cond.holds (ctx : SelCtx) (b : Byte) : Cond → Bool
  | .none => true
  | .isMarker => b == ctx.marker
  | .isEol => b == lineTerm && b != ctx.marker
  | .isText => b != ctx.marker && b != lineTerm
  | .isTerm => b == lineTerm
  | .notTerm => b != lineTerm
  | .inBounds => lenInBounds ctx.minPayload ctx.maxPayload (lenOf ctx.lenLo b)
  | .outOfBounds => !lenInBounds ctx.minPayload ctx.maxPayload (lenOf ctx.lenLo b)

/-- A row is selected by `key` and `b` (R91). -/
def OpRow.selects (ctx : SelCtx) (key : Key) (b : Byte) (r : OpRow) : Bool :=
  key &&& r.mask == r.pattern && r.cond.holds ctx b

/-- The first row that is selected (R91). -/
def selectRow (ctx : SelCtx) (key : Key) (b : Byte) : Option OpName :=
  (opTable.find? (OpRow.selects ctx key b)).map OpRow.op

/-- The suggested event kind codes (R91). -/
def Event.kind : Event → BitVec 3
  | .start _ _ => 0
  | .byte _ _ => 1
  | .timeout _ => 2
  | .stopReq _ => 3
  | .fail _ => 4

/-- The byte of a `BYTE` event; no condition looks at it for another event. -/
def Event.data : Event → Byte
  | .byte b _ => b
  | _ => 0

/-- The clock reading that accompanies an event (R79). -/
def Event.now : Event → Time
  | .start _ t => t
  | .byte _ t => t
  | .timeout t => t
  | .stopReq t => t
  | .fail t => t

/-- The operation named by a row, with its operands out of the event; `none` where the event is of another kind. -/
def OpName.build (o : OpName) : Event → Option Instr
  | .start cfg now => if o = .start then some (.start cfg now) else none
  | .byte b now =>
    match o with
    | .nopIdle => some (.nopIdle (.byte b now))
    | .huntMarker => some (.huntMarker b now)
    | .huntEol => some (.huntEol b now)
    | .huntText => some (.huntText b now)
    | .lineEol => some (.lineEol b now)
    | .lineText => some (.lineText b now)
    | .lenLo => some (.lenLo b now)
    | .lenHi => some (.lenHi b now)
    | .lenHiOob => some (.lenHiOob b now)
    | .payByte => some (.payByte b now)
    | .chkByte => some (.chkByte b now)
    | .skipByte => some (.skipByte b now)
    | _ => none
  | .timeout now =>
    match o with
    | .nopIdle => some (.nopIdle (.timeout now))
    | .huntTimeout => some (.huntTimeout now)
    | .lineTimeout => some (.lineTimeout now)
    | .len0Timeout => some (.len0Timeout now)
    | .len1Timeout => some (.len1Timeout now)
    | .payTimeout => some (.payTimeout now)
    | .chkTimeout => some (.chkTimeout now)
    | .skipTimeout => some (.skipTimeout now)
    | _ => none
  | .stopReq now =>
    match o with
    | .nopIdle => some (.nopIdle (.stopReq now))
    | .stopNow => some (.stopNow now)
    | .stopPend => some (.stopPend now)
    | _ => none
  | .fail now =>
    match o with
    | .nopIdle => some (.nopIdle (.fail now))
    | .fail => some (.fail now)
    | _ => none

/-- The instruction an event selects under the key built for it. -/
def select (ctx : SelCtx) (key : Key) (e : Event) : Option Instr :=
  match selectRow ctx key e.data with
  | some o => o.build e
  | none => none

/-! ### The decoder of instruction images (log entry 6) -/

/-- Why an image is no instruction. -/
inductive Reject
  /-- The image ends before the instruction does. -/
  | truncated
  /-- The head byte names no format of the table. -/
  | noFormat (head : Byte)
  /-- The kind code is no event's (R91: codes 0 to 4). -/
  | noEventKind (kind : BitVec 3)
  /-- No OP row is selected by this key. -/
  | noRow (key : Key)
  /-- A FRAME image does not begin with the marker. -/
  | noMarker (b : Byte)
  /-- A TEXTLINE image begins with the marker. -/
  | markerInText (b : Byte)
deriving DecidableEq, Repr

/-- The eight bytes of a clock reading, low byte first. -/
def takeTime (s : List Byte) : Option (Time × List Byte) :=
  if 8 ≤ s.length then some (le64 (s.take 8), s.drop 8) else none

/-- The event a kind code, a data byte and a clock reading stand for; START takes the configuration presented. -/
def eventOf (cfgIn : Config) (kind : BitVec 3) (b : Byte) (now : Time) : Option Event :=
  match kind.toNat with
  | 0 => some (.start cfgIn now)
  | 1 => some (.byte b now)
  | 2 => some (.timeout now)
  | 3 => some (.stopReq now)
  | 4 => some (.fail now)
  | _ => none

/-- The EVENT row of an event. -/
def Event.instr : Event → Instr
  | .start cfg now => .evStart cfg now
  | .byte b now => .evByte b now
  | .timeout now => .evTimeout now
  | .stopReq now => .evStopReq now
  | .fail now => .evFail now

/-- The event after a head byte: a data byte and a clock reading. -/
def takeEvent (cfgIn : Config) (kind : BitVec 3) : List Byte → Except Reject (Event × List Byte)
  | [] => .error .truncated
  | b :: s =>
    match takeTime s with
    | none => .error .truncated
    | some (now, rest) =>
      match eventOf cfgIn kind b now with
      | some e => .ok (e, rest)
      | none => .error (.noEventKind kind)

/-- An OP image: the selector key, then the event (R91). -/
def decodeOp (ctx : SelCtx) (cfgIn : Config) (key : Key) (s : List Byte) : Except Reject (Instr × List Byte) :=
  match takeEvent cfgIn (key.extractLsb' 0 3) s with
  | .error r => .error r
  | .ok (e, rest) =>
    match select ctx key e with
    | some i => .ok (i, rest)
    | none => .error (.noRow key)

/-- An EVENT image: the kind code, then the event (R79). -/
def decodeEvent (cfgIn : Config) (kind : BitVec 3) (s : List Byte) : Except Reject (Instr × List Byte) :=
  match takeEvent cfgIn kind s with
  | .error r => .error r
  | .ok (e, rest) => .ok (e.instr, rest)

/-- A FRAME as R70 lays it out: marker, two length bytes, the payload, the checksum byte. -/
def decodeFrameBytes (ctx : SelCtx) (now : Time) : List Byte → Except Reject (Instr × List Byte)
  | m :: l :: h :: s =>
    if m == ctx.marker then
      match s.drop (le16 [l, h]).toNat with
      | c :: rest => .ok (.frame (s.take (le16 [l, h]).toNat) c now, rest)
      | [] => .error .truncated
    else .error (.noMarker m)
  | _ => .error .truncated

/-- A PAYLOAD as R71 lays it out: source, timestamp, sample count, that many samples. -/
def decodePayloadBytes (now : Time) (s : List Byte) : Except Reject (Instr × List Byte) :=
  let n := (le16 (slice s 14 16)).toNat
  if headerLen ≤ s.length ∧ headerLen + n ≤ s.length then
    .ok (.payload (packSource (slice s 0 6)) (le64 (slice s 6 14)) ((slice s 16 (16 + n)).map s8) now, s.drop (16 + n))
  else .error .truncated

/-- The text up to the first `0x0A`, whether there is one, and what follows it. -/
def splitLine : List Byte → List Byte × Bool × List Byte
  | [] => ([], false, [])
  | b :: s =>
    if b == lineTerm then ([], true, s)
    else
      match splitLine s with
      | (t, ended, rest) => (b :: t, ended, rest)

/-- A TEXTLINE as R78 describes it; where no `0x0A` ends it, a TIMEOUT does. -/
def decodeTextBytes (ctx : SelCtx) (now : Time) : List Byte → Except Reject (Instr × List Byte)
  | [] => .error .truncated
  | x :: s =>
    if x == ctx.marker then .error (.markerInText x)
    else if x == lineTerm then .ok (.textLine x [] true now, s)
    else
      match splitLine s with
      | (t, ended, rest) => .ok (.textLine x t ended now, rest)

/-- A WIRE image: a clock reading, then the bytes on the wire. -/
def decodeWire (f : Time → List Byte → Except Reject (Instr × List Byte)) (s : List Byte) :
    Except Reject (Instr × List Byte) :=
  match takeTime s with
  | none => .error .truncated
  | some (now, w) => f now w

/-- The decoder, total on any bytes: bit 7 of the head byte clear, an OP row's key (R91); `0x80` to `0x87`, an event's
kind; `0xC0`, `0xC1`, `0xC2`, a wire format. A PROC row has no encoding. -/
def decode (ctx : SelCtx) (cfgIn : Config) : List Byte → Except Reject (Instr × List Byte)
  | [] => .error .truncated
  | h :: s =>
    if h.toNat < 128 then decodeOp ctx cfgIn (h.extractLsb' 0 7) s
    else if h.toNat < 136 then decodeEvent cfgIn (h.extractLsb' 0 3) s
    else if h == 0xC0 then decodeWire (decodeFrameBytes ctx) s
    else if h == 0xC1 then decodeWire decodePayloadBytes s
    else if h == 0xC2 then decodeWire (decodeTextBytes ctx) s
    else .error (.noFormat h)

/-! ### The encoder -/

/-- `u16` as two wire bytes, low byte first (R73, R75). -/
def halfBytes (n : Nat) : List Byte := leBytes 2 n

/-- `u64` as eight wire bytes, low byte first (R74). -/
def timeBytes (t : Time) : List Byte := leBytes 8 t.toNat

/-- The bytes of a frame (R70). -/
def frameBytes (marker : Byte) (p : List Byte) (c : Byte) : List Byte :=
  marker :: (halfBytes p.length ++ (p ++ [c]))

/-- The bytes of a payload (R71, and `P` of R89). -/
def payloadBytes (src : SourceId) (ts : Time) (v : List Int) : List Byte :=
  sourceBytes src ++ (timeBytes ts ++ (halfBytes v.length ++ v.map u8of))

/-- The encoder of a conforming frame (R89), `FRAME(src, ts, v)` of R87. -/
def encodeFrame (marker : Byte) (src : SourceId) (ts : Time) (v : List Int) : List Byte :=
  frameBytes marker (payloadBytes src ts v) (xor8 (payloadBytes src ts v))

/-- The bytes of a diagnostic line (R78). -/
def textBytes (x : Byte) (ys : List Byte) (terminated : Bool) : List Byte :=
  if x == lineTerm then [x] else x :: (ys ++ (if terminated then [lineTerm] else []))

/-- An image's event part. -/
def eventBytes (b : Byte) (now : Time) : List Byte := b :: timeBytes now

/-- An OP image. -/
def opImage (key : Key) (b : Byte) (now : Time) : List Byte := key.setWidth 8 :: eventBytes b now

/-- The image of an instruction; a PROC row has none. -/
def encode (ctx : SelCtx) : Instr → Option (List Byte)
  | .start _ now => some (opImage 0x00 0 now)
  | .nopIdle e => some (opImage (e.kind.setWidth 7) e.data e.now)
  | .fail now => some (opImage 0x44 0 now)
  | .stopNow now => some (opImage 0x43 0 now)
  | .stopPend now => some (opImage 0x4B 0 now)
  | .huntMarker b now => some (opImage 0x41 b now)
  | .huntEol b now => some (opImage 0x41 b now)
  | .huntText b now => some (opImage 0x41 b now)
  | .huntTimeout now => some (opImage 0x42 0 now)
  | .lineEol b now => some (opImage 0x49 b now)
  | .lineText b now => some (opImage 0x49 b now)
  | .lineTimeout now => some (opImage 0x4A 0 now)
  | .lenLo b now => some (opImage 0x51 b now)
  | .len0Timeout now => some (opImage 0x52 0 now)
  | .lenHi b now => some (opImage 0x59 b now)
  | .lenHiOob b now => some (opImage 0x59 b now)
  | .len1Timeout now => some (opImage 0x5A 0 now)
  | .payByte b now => some (opImage 0x61 b now)
  | .payTimeout now => some (opImage 0x62 0 now)
  | .chkByte b now => some (opImage 0x69 b now)
  | .chkTimeout now => some (opImage 0x6A 0 now)
  | .skipByte b now => some (opImage 0x71 b now)
  | .skipTimeout now => some (opImage 0x72 0 now)
  | .decode _ _ _ => none
  | .filter _ => none
  | .meterInc _ => none
  | .meterFlush _ => none
  | .endAttempt _ => none
  | .frame p c now => some (0xC0 :: (timeBytes now ++ frameBytes ctx.marker p c))
  | .payload src ts v now => some (0xC1 :: (timeBytes now ++ payloadBytes src ts v))
  | .textLine x ys t now => some (0xC2 :: (timeBytes now ++ textBytes x ys t))
  | .evStart _ now => some (0x80 :: eventBytes 0 now)
  | .evByte b now => some (0x81 :: eventBytes b now)
  | .evTimeout now => some (0x82 :: eventBytes 0 now)
  | .evStopReq now => some (0x83 :: eventBytes 0 now)
  | .evFail now => some (0x84 :: eventBytes 0 now)

/-- An image ends by itself, but for the text line that a TIMEOUT ends (R78). -/
def Instr.selfDelimiting : Instr → Bool
  | .textLine _ _ t _ => t
  | _ => true

/-! ### Words numbered as the opcode table numbers them -/

/-- The comparator inputs under the default configuration and `len = 0`. -/
def SelCtx.default : SelCtx :=
  { marker := Config.default.marker, minPayload := Config.default.minPayload,
    maxPayload := Config.default.maxPayload, lenLo := 0 }

/-- The image of a table word: its bytes, low byte first, and zeros up to the longest OP image. -/
def tableImage (nbits w : Nat) : List Byte := leBytes ((nbits + 7) / 8) w ++ List.replicate 9 0

/-- The instruction the decoder reads from a table word. -/
def decodeTableWord (nbits w : Nat) : Option Instr :=
  match decode SelCtx.default Config.default (tableImage nbits w) with
  | .ok (i, _) => some i
  | .error _ => none

/-- The key and the event of a table word that is an OP image; what a fetch of it takes. -/
def tableEvent (nbits w : Nat) : Option (Key × Event) :=
  match tableImage nbits w with
  | [] => none
  | h :: s =>
    if h.toNat < 128 then
      match takeEvent Config.default (h.extractLsb' 0 3) s with
      | .ok (e, _) => some (h.extractLsb' 0 7, e)
      | .error _ => none
    else none

end Sys2Proof
end

