-- ==== Sys2Proof/Machine/State.lean ====
section
/-! DEFINITION. The state of the engine (10_state R20, R33) as plain data, the outputs it emits (30_encoding R80, R81),
the reasons a step stops, and the state at power-on (R37, R241). -/

namespace Sys2Proof.Machine

/-- `life` (10_state R21). -/
inductive Life
  | off | run | stopped | failed
deriving DecidableEq, Repr

/-- `phase` (10_state R22). -/
inductive Phase
  | hunt | line | len0 | len1 | payload | check | skip
deriving DecidableEq, Repr

/-- The payload buffer's cells that hold a byte (10_state R26); an unlisted cell is unwritten. -/
abbrev Memory := List Host.Cell

/-- A DecodedRecord (00_scope R13, 10_state R30). -/
structure Record where
  source : SourceId
  deviceTimestamp : Time
  hostReceiveTimestamp : Time
  samples : List Int
deriving DecidableEq, Repr

/-- The reasons and info of `FrameDropped` (30_encoding R81, codes 2 to 7). -/
inductive DropReason
  | truncatedFrame
  | lengthOutOfBounds (declaredLen : Half)
  | checksumMismatch (computed received : Byte)
  | headerError
  | payloadLengthError
  | sourceNotAllowed (source : SourceId)
deriving DecidableEq, Repr

/-- The reason of `Fatal` (30_encoding R81, code 8). -/
inductive FatalReason
  | byteSourceFailure
deriving DecidableEq, Repr

/-- The output alphabet (30_encoding R80). -/
inductive Output
  | noData
  | desync (text : List Byte) (terminated : Bool)
  | frameDropped (reason : DropReason)
  | frameAccepted
  | stopped
  | fatal (reason : FatalReason)
  | record (r : Record)
  | rateSnapshot (windowEnd : Time) (counts : List (SourceId × Count))
deriving DecidableEq, Repr

/-- The errors of `DECODE` (41_decoder R130). -/
inductive DecodeError
  | checksumMismatch (computed received : Byte)
  | headerError
  | payloadLengthError
deriving DecidableEq, Repr

/-- What an internal procedure returns to its invoker (41_decoder R130, 42_filter R150; log entry 3). -/
inductive ProcResult
  | decoded (r : Record)
  | decodeFailed (e : DecodeError)
  | filtered (accepted : Bool)
deriving DecidableEq, Repr

/-- Why the machine stops with a fault. No rule of the spec stops the engine: each is a fault of the model. -/
inductive Fault
  /-- Raised by `step` when no event is presented (93_implementation_defined U29, stuck). Safe. -/
  | noEvent
  /-- Raised by `MemWrite` outside the buffer (20_memory R52, U22). Safe: unreachable from a state that meets R38. -/
  | bufWriteRange
  /-- Raised by `MemRead` beyond `len` (20_memory R52, U22). Safe: unreachable from a state that meets R38. -/
  | bufReadBeyondLen
  /-- Raised by `MemRead` of a cell not written in the current attempt (10_state R26, U21). Safe: unreachable likewise. -/
  | bufReadStale
  /-- Raised by `MemRead` of an unwritten cell (10_state R26, U21). Safe: unreachable likewise. -/
  | bufReadUnwritten
  /-- Raised by `SKIP.BYTE` with `cnt = 0`, for which R115's `cnt - 1` is no value of `cnt` (R24). Safe: unreachable likewise. -/
  | skipUnderflow
deriving DecidableEq, Repr

/-- Why the machine refuses. -/
inductive Refusal
  /-- Raised by an arm of `exec` whose instruction has no meaning yet. Safe. -/
  | notModelled (mnemonic : String)
  /-- Raised by `step` if no operation were selected; R90 says one always is. Safe: unreachable. -/
  | noOperation
deriving DecidableEq, Repr

/-- The state: the components of 10_state R20 and the configuration of R33; then the model's own fields. -/
structure State where
  life : Life
  phase : Phase
  len : Half
  cnt : BitVec 17
  xorAcc : Byte
  pbuf : Memory
  lbuf : List Byte
  /-- The non-zero counts, by rising SourceId (R28, R169). -/
  rate : List (SourceId × Count)
  lastFlush : Time
  stopPending : Bool
  rejCount : Count
  cfg : Config
  /-- The OPEN capacities; written by no operation (log entry 4). -/
  impl : Impl
  /-- The events presented and not yet consumed, oldest first (log entry 2). -/
  input : List Event
  /-- The outputs emitted, oldest first (log entry 1). -/
  out : List Output
  /-- What the procedure last executed on its own returned (log entry 3). -/
  ret : Option ProcResult
deriving DecidableEq, Repr

/-- The outcome of an instruction. -/
abbrev Result := Host.Outcome State Fault Refusal

/-- Power-on (10_state R37, 70_reset R241): `life = OFF`, every cell of `pbuf` unwritten; the spec leaves every other
value open and log entry 5 names them. -/
def State.reset : State :=
  { life := .off, phase := .hunt, len := 0, cnt := 0, xorAcc := 0, pbuf := [], lbuf := [], rate := [], lastFlush := 0,
    stopPending := false, rejCount := 0, cfg := Config.default, impl := { allowCapacity := none, pbufCapacity := none },
    input := [], out := [], ret := none }

end Sys2Proof.Machine
end

