-- ==== Sys2Proof/Machine/Flags.lean ====
section
/-! DEFINITION. The conditions and saturating counters the rules compute: the flush condition, the OPEN capacities, the
32-bit counters. The engine has no condition codes (10_state R31). -/

namespace Sys2Proof.Machine

/-- `min(c + 1, 2^32 - 1)` (42_filter R151, 43_rate_meter R161, R167). -/
def satInc (c : Count) : Count := if c.toNat + 1 ≤ 2 ^ 32 - 1 then c + 1 else c

/-- `now - last_flush >= RATE_WINDOW_MS`, over the integers (43_rate_meter R162). -/
def flushDue (now lastFlush : Time) (window : Nat) : Bool :=
  decide ((now.toNat : Int) - (lastFlush.toNat : Int) ≥ (window : Int))

/-- The number of distinct values in a list. -/
def distinctCount : List SourceId → Nat
  | [] => 0
  | x :: xs => if x ∈ xs then distinctCount xs else distinctCount xs + 1

/-- The set `{ id_k | valid_k = 1 }` of a CAM (10_state R34), as a list that may repeat. -/
def allowIds (cam : List CamEntry) : List SourceId := (cam.filter CamEntry.valid).map CamEntry.id

/-- `n` fits in an OPEN capacity; none is unbounded. -/
def fits (n : Nat) : Option Nat → Bool
  | none => true
  | some c => decide (n ≤ c)

/-- The implementation can load `cfg` (42_filter R154, 92_eei_decisions D17, D34). -/
def admits (p : Impl) (cfg : Config) : Bool :=
  fits (distinctCount (allowIds cfg.allow)) p.allowCapacity && fits cfg.maxPayload.toNat p.pbufCapacity

end Sys2Proof.Machine
end

