-- ==== Sys2Proof/Machine/Ops.lean ====
section
/-! DEFINITION. The named operations over state: sorted stores, the payload buffer's `MemWrite` and `MemRead`
(20_memory R52), the rate table (43_rate_meter), emitting outputs, and what an error does: `END_ATTEMPT` and
`raise Drop` (00_scope R11, 40_scanner R117, 60_exceptions R213), which is also the return to `HUNT` (R215). -/

namespace Sys2Proof.Machine

/-! ### Stores kept in rising order of a rank -/

/-- The value stored for `k`. -/
def lookupBy {κ β : Type} (rank : κ → Nat) (k : κ) : List (κ × β) → Option β
  | [] => none
  | (j, v) :: m => if rank j = rank k then some v else lookupBy rank k m

/-- `v` stored for `k`, in place. -/
def storeBy {κ β : Type} (rank : κ → Nat) (k : κ) (v : β) : List (κ × β) → List (κ × β)
  | [] => [(k, v)]
  | (j, w) :: m =>
    if rank k < rank j then (k, v) :: (j, w) :: m
    else if rank k = rank j then (k, v) :: m
    else (j, w) :: storeBy rank k v m

/-- Ranks strictly rise. -/
abbrev SortedBy {κ β : Type} (rank : κ → Nat) (m : List (κ × β)) : Prop := m.Pairwise (fun a b => rank a.1 < rank b.1)

/-! ### The payload buffer -/

/-- The one canonical form: addresses strictly rise. An unlisted cell is unwritten, which no entry equals. -/
abbrev Memory.wf (m : Memory) : Prop := SortedBy (fun a : Nat => a) m

/-- The byte in a cell; `none` where the cell is unwritten (10_state R26). -/
def Memory.cell (m : Memory) (a : Nat) : Option Byte := lookupBy (fun a : Nat => a) a m

/-- A cell written. -/
def Memory.set (m : Memory) (a : Nat) (v : Byte) : Memory := storeBy (fun a : Nat => a) a v m

/-- The bytes of `n` cells from `a` on, if each is written. -/
def Memory.gather (m : Memory) : Nat → Nat → Option (List Byte)
  | _, 0 => some []
  | a, n + 1 =>
    match m.cell a with
    | none => none
    | some v =>
      match m.gather (a + 1) n with
      | none => none
      | some s => some (v :: s)

/-- `MemWrite(a, 1, v)` (20_memory R52). -/
def memWrite (s : State) (a : Nat) (v : Byte) : Except Fault Memory :=
  if a < s.cfg.maxPayload.toNat then .ok (s.pbuf.set a v) else .error .bufWriteRange

/-- `MemRead(a, n)` (20_memory R52); the cells written in the current attempt are those below `cnt` (log entry 10). -/
def memRead (s : State) (a n : Nat) : Except Fault (List Byte) :=
  if s.len.toNat < a + n then .error .bufReadBeyondLen
  else if s.cnt.toNat < a + n then .error .bufReadStale
  else
    match s.pbuf.gather a n with
    | none => .error .bufReadUnwritten
    | some p => .ok p

/-! ### The rate table -/

/-- `rate[source]` (10_state R28): zero for a source not stored. -/
def rateOf (t : List (SourceId × Count)) (src : SourceId) : Count := (lookupBy BitVec.toNat src t).getD 0

/-- The canonical form: sources strictly rise and no count is zero. -/
abbrev RateWf (t : List (SourceId × Count)) : Prop := SortedBy BitVec.toNat t ∧ ∀ e ∈ t, e.2 ≠ 0

/-- `METER.INC(source)` (43_rate_meter R161). -/
def meterInc (src : SourceId) (s : State) : State :=
  { s with rate := storeBy BitVec.toNat src (satInc (rateOf s.rate src)) s.rate }

/-- `{ s -> rate[s] | rate[s] >= 1 }` (43_rate_meter R162), ascending (R169). -/
def snapshot (t : List (SourceId × Count)) : List (SourceId × Count) := t.filter (fun e => e.2 != 0)

/-! ### Outputs and the end of an attempt -/

/-- `emit` (00_scope R11): the outputs in the order given, after those already emitted. -/
def State.emit (s : State) (os : List Output) : State := { s with out := s.out ++ os }

/-- `METER.FLUSH(now)` (43_rate_meter R162). -/
def meterFlush (now : Time) (s : State) : State :=
  if flushDue now s.lastFlush s.cfg.rateWindowMs then
    { s with rate := [], lastFlush := now, out := s.out ++ [.rateSnapshot now (snapshot s.rate)] }
  else s

/-- The first five lines of R117: `HUNT` is one canonical state. -/
def State.clearFrame (s : State) : State := { s with phase := .hunt, len := 0, cnt := 0, xorAcc := 0, lbuf := [] }

/-- The last three lines of R117: a pending stop is observed (44_system R178). -/
def observeStop (s : State) : State :=
  if s.stopPending then { s with life := .stopped, out := s.out ++ [.stopped] } else s

/-- `END_ATTEMPT(now)` (40_scanner R117). -/
def endAttempt (now : Time) (s : State) : State := observeStop (meterFlush now s.clearFrame)

/-- `raise Drop(reason, info)` (00_scope R11). -/
def raiseDrop (r : DropReason) (now : Time) (s : State) : State := endAttempt now (s.emit [.frameDropped r])

end Sys2Proof.Machine
end

