-- ==== Sys2Proof/Machine/Filter.lean ====
section
/-! DEFINITION. The Source Filter (42_filter R150). -/

namespace Sys2Proof.Machine

/-- `FILTER(source)` (R150): an entry with `valid_k = 1` and `id_k = source`, all 48 bits equal. -/
def filterSource (cam : List CamEntry) (src : SourceId) : Bool := cam.any (fun e => e.valid && e.id == src)

/-- `FILTER` performed on its own: it writes nothing and returns its result (log entry 3). -/
def execFilter (src : SourceId) (s : State) : Result :=
  .next { s with ret := some (.filtered (filterSource s.cfg.allow src)) }

end Sys2Proof.Machine
end

