-- ==== Sys2Proof/Machine/Operands.lean ====
section
/-! DEFINITION. The operand forms: the declared length assembled from its two bytes (40_scanner R108), and the fields of
a payload (20_memory R61, 30_encoding R74 to R77). -/

namespace Sys2Proof.Machine

/-- `len[7:0]`. -/
def State.lenLo (s : State) : Byte := s.len.extractLsb' 0 8

/-- `L = len[7:0] + 256 * b` (40_scanner R108, R109). -/
def State.declaredLen (s : State) (b : Byte) : Half := lenOf s.lenLo b

/-- `MIN_PAYLOAD <= L <= MAX_PAYLOAD` for the latched configuration (40_scanner R108). -/
def State.lenAdmitted (s : State) (b : Byte) : Bool :=
  lenInBounds s.cfg.minPayload s.cfg.maxPayload (s.declaredLen b)

/-- `source_id = P[0..6)` (R77). -/
def sourceField (p : List Byte) : SourceId := packSource (slice p 0 6)

/-- `device_timestamp = le64(P[6..14))` (R74). -/
def timestampField (p : List Byte) : Time := le64 (slice p 6 14)

/-- `sample_count = le16(P[14..16))` (R75). -/
def sampleCountField (p : List Byte) : Half := le16 (slice p 14 16)

/-- `samples[k] = s8(P[16 + k])`, `k = 0 .. n-1` (R76). -/
def samplesField (p : List Byte) (n : Nat) : List Int := (slice p 16 (16 + n)).map s8

end Sys2Proof.Machine
end

