-- ==== Sys2Proof/Machine/RateMeter.lean ====
section
/-! DEFINITION. The Rate Meter's procedures performed on their own (43_rate_meter R161, R162). -/

namespace Sys2Proof.Machine

/-- `METER.INC(source)` (R161). -/
def execMeterInc (src : SourceId) (s : State) : Result := .next (meterInc src s)

/-- `METER.FLUSH(now)` (R162). -/
def execMeterFlush (now : Time) (s : State) : Result := .next (meterFlush now s)

end Sys2Proof.Machine
end

