-- ==== Sys2Proof/Machine/Decoder.lean ====
section
/-! DEFINITION. The Frame Decoder: the pure function `DECODE` (41_decoder R130) and the operation `CHK.BYTE` (R136). -/

namespace Sys2Proof.Machine

/-- `DECODE(P, c, now)` (R130): checksum first (R131, R135), then the header (R132), then the samples (R133, R137). -/
def decodeFrame (p : List Byte) (c : Byte) (now : Time) : Except DecodeError Record :=
  if xor8 p ≠ c then .error (.checksumMismatch (xor8 p) c)
  else if p.length < headerLen then .error .headerError
  else if p.length - headerLen < (sampleCountField p).toNat then .error .payloadLengthError
  else .ok { source := sourceField p, deviceTimestamp := timestampField p, hostReceiveTimestamp := now,
             samples := samplesField p (sampleCountField p).toNat }

/-- The report of a decode error (30_encoding R81). -/
def DecodeError.reason : DecodeError → DropReason
  | .checksumMismatch x y => .checksumMismatch x y
  | .headerError => .headerError
  | .payloadLengthError => .payloadLengthError

/-- The arms of `CHK.BYTE` (R136, 42_filter R151). -/
def judge (s : State) : Except DecodeError Record → State
  | .error e => s.emit [.frameDropped e.reason]
  | .ok r =>
    if filterSource s.cfg.allow r.source then (meterInc r.source s).emit [.frameAccepted, .record r]
    else { s with rejCount := satInc s.rejCount }.emit [.frameDropped (.sourceNotAllowed r.source)]

/-- `CHK.BYTE` (R136). -/
def execChkByte (b : Byte) (now : Time) (s : State) : Result :=
  match memRead s 0 s.len.toNat with
  | .error f => .fault f
  | .ok p => .next (endAttempt now (judge s (decodeFrame p b now)))

/-- What `DECODE` hands its invoker (log entry 3). -/
def decodeReturn : Except DecodeError Record → ProcResult
  | .error e => .decodeFailed e
  | .ok r => .decoded r

/-- `DECODE` performed on its own: it reads and writes no state and returns its result (log entry 3). -/
def execDecode (p : List Byte) (c : Byte) (now : Time) (s : State) : Result :=
  .next { s with ret := some (decodeReturn (decodeFrame p c now)) }

end Sys2Proof.Machine
end

