-- ==== Sys2Proof/Machine/Scanner.lean ====
section
/-! DEFINITION. The Frame Scanner's operations (40_scanner R100 to R117), each written as its rule's pseudocode; that an
operation runs only where it is selected is the table's work (log entry 8). -/

namespace Sys2Proof.Machine

/-- `HUNT.MARKER` (R100). -/
def execHuntMarker (_b : Byte) (_now : Time) (s : State) : Result := .next { s with phase := .len0 }

/-- `HUNT.EOL` (R102). -/
def execHuntEol (_b : Byte) (now : Time) (s : State) : Result :=
  .next (endAttempt now (s.emit [.desync [lineTerm] true]))

/-- `HUNT.TEXT` (R101). -/
def execHuntText (b : Byte) (_now : Time) (s : State) : Result := .next { s with lbuf := [b], phase := .line }

/-- `HUNT.TIMEOUT` (R103). -/
def execHuntTimeout (now : Time) (s : State) : Result := .next (endAttempt now (s.emit [.noData]))

/-- `LINE.EOL` (R105). -/
def execLineEol (_b : Byte) (now : Time) (s : State) : Result :=
  .next (endAttempt now (s.emit [.desync (s.lbuf ++ [lineTerm]) true]))

/-- `LINE.TEXT` (R104). -/
def execLineText (b : Byte) (_now : Time) (s : State) : Result := .next { s with lbuf := s.lbuf ++ [b] }

/-- `LINE.TIMEOUT` (R106). -/
def execLineTimeout (now : Time) (s : State) : Result := .next (endAttempt now (s.emit [.desync s.lbuf false]))

/-- `LEN.LO` (R107). -/
def execLenLo (b : Byte) (_now : Time) (s : State) : Result := .next { s with len := zext 16 b, phase := .len1 }

/-- `LEN0.TIMEOUT` (R110). -/
def execLen0Timeout (now : Time) (s : State) : Result := .next (raiseDrop .truncatedFrame now s)

/-- `LEN.HI` (R108). -/
def execLenHi (b : Byte) (_now : Time) (s : State) : Result :=
  .next { s with len := s.declaredLen b, cnt := 0, xorAcc := 0,
                 phase := if 1 ≤ (s.declaredLen b).toNat then .payload else .check }

/-- `LEN.HI.OOB` (R109). -/
def execLenHiOob (b : Byte) (_now : Time) (s : State) : Result :=
  .next ({ s with len := s.declaredLen b, cnt := zext 17 (s.declaredLen b) + 1, phase := .skip }.emit
    [.frameDropped (.lengthOutOfBounds (s.declaredLen b))])

/-- `LEN1.TIMEOUT` (R111). -/
def execLen1Timeout (now : Time) (s : State) : Result := .next (raiseDrop .truncatedFrame now s)

/-- `PAY.BYTE` (R112). -/
def execPayByte (b : Byte) (_now : Time) (s : State) : Result :=
  match memWrite s s.cnt.toNat b with
  | .error f => .fault f
  | .ok m =>
    .next { s with pbuf := m, xorAcc := s.xorAcc ^^^ b, cnt := s.cnt + 1,
                   phase := if (s.cnt + 1).toNat = s.len.toNat then .check else s.phase }

/-- `PAY.TIMEOUT` (R113). -/
def execPayTimeout (now : Time) (s : State) : Result := .next (raiseDrop .truncatedFrame now s)

/-- `CHK.TIMEOUT` (R114). -/
def execChkTimeout (now : Time) (s : State) : Result := .next (raiseDrop .truncatedFrame now s)

/-- `SKIP.BYTE` (R115); where `cnt = 0` the rule's `cnt - 1` is no value of the register (log entry 11). -/
def execSkipByte (_b : Byte) (now : Time) (s : State) : Result :=
  if s.cnt = 0 then .fault .skipUnderflow
  else if s.cnt = 1 then .next (endAttempt now { s with cnt := 0 })
  else .next { s with cnt := s.cnt - 1 }

/-- `SKIP.TIMEOUT` (R116). -/
def execSkipTimeout (now : Time) (s : State) : Result := .next (endAttempt now s)

/-- `END_ATTEMPT(now)` (R117), performed on its own. -/
def execEndAttempt (now : Time) (s : State) : Result := .next (endAttempt now s)

end Sys2Proof.Machine
end

