-- ==== Sys2Proof/Machine/System.lean ====
section
/-! DEFINITION. The system operations (44_system R175 to R180). -/

namespace Sys2Proof.Machine

/-- `START(cfg, now)` (R175, 70_reset R240); where the implementation cannot load `cfg` the START is not performed and
the engine stays as it was (93_implementation_defined U23, log entry 4). -/
def execStart (cfg : Config) (now : Time) (s : State) : Result :=
  if admits s.impl cfg then
    .next { s with cfg := cfg, life := .run, phase := .hunt, len := 0, cnt := 0, xorAcc := 0, pbuf := [], lbuf := [],
                   rate := [], lastFlush := now, stopPending := false, rejCount := 0 }
  else .next s

/-- `NOP.IDLE` (R180). -/
def execNopIdle (_e : Event) (s : State) : Result := .next s

/-- `FAIL` (R179). -/
def execFail (_now : Time) (s : State) : Result := .next ({ s with life := .failed }.emit [.fatal .byteSourceFailure])

/-- `STOP.NOW` (R176). -/
def execStopNow (_now : Time) (s : State) : Result := .next ({ s with life := .stopped }.emit [.stopped])

/-- `STOP.PEND` (R177). -/
def execStopPend (_now : Time) (s : State) : Result := .next { s with stopPending := true }

end Sys2Proof.Machine
end

