-- ==== Sys2Proof/Machine/Engine.lean ====
section
/-! DEFINITION. The engine's reaction to one event (30_encoding R90, R82; 44_system R181), which is what the EVENT rows
do (R79), and the delivery of a byte pattern, which is what the WIRE rows do (R70, R71, R78; log entry 9). -/

namespace Sys2Proof.Machine

/-- R90 step 6: the `BYTE` row of `phase`. -/
def reactByte (b : Byte) (now : Time) (s : State) : Result :=
  match s.phase with
  | .hunt =>
    if b = s.cfg.marker then execHuntMarker b now s
    else if b = lineTerm then execHuntEol b now s
    else execHuntText b now s
  | .line => if b = lineTerm then execLineEol b now s else execLineText b now s
  | .len0 => execLenLo b now s
  | .len1 => if s.lenAdmitted b then execLenHi b now s else execLenHiOob b now s
  | .payload => execPayByte b now s
  | .check => execChkByte b now s
  | .skip => execSkipByte b now s

/-- R90 step 5: the `TIMEOUT` row of `phase`. -/
def reactTimeout (now : Time) (s : State) : Result :=
  match s.phase with
  | .hunt => execHuntTimeout now s
  | .line => execLineTimeout now s
  | .len0 => execLen0Timeout now s
  | .len1 => execLen1Timeout now s
  | .payload => execPayTimeout now s
  | .check => execChkTimeout now s
  | .skip => execSkipTimeout now s

/-- The reaction to one event: the tests of R90 in their order. -/
def react (e : Event) (s : State) : Result :=
  match e with
  | .start cfg now => execStart cfg now s
  | .fail now => if s.life = .run then execFail now s else execNopIdle e s
  | .stopReq now =>
    if s.life = .run then (if s.phase = .hunt then execStopNow now s else execStopPend now s) else execNopIdle e s
  | .timeout now => if s.life = .run then reactTimeout now s else execNopIdle e s
  | .byte b now => if s.life = .run then reactByte b now s else execNopIdle e s

/-- A run over an event sequence (44_system R181), up to the first fault. -/
def runEvents : List Event → State → Result
  | [], s => .next s
  | e :: es, s =>
    match react e s with
    | .next t => runEvents es t
    | .fault f => .fault f
    | .refused r => .refused r

/-- Bytes as consecutive `BYTE` events at one clock reading (30_encoding R86). -/
def bytesAt (now : Time) (bs : List Byte) : List Event := bs.map (fun b => .byte b now)

/-- `EV.START` (R79). -/
def execEvStart (cfg : Config) (now : Time) (s : State) : Result := react (.start cfg now) s

/-- `EV.BYTE` (R79). -/
def execEvByte (b : Byte) (now : Time) (s : State) : Result := react (.byte b now) s

/-- `EV.TIMEOUT` (R79). -/
def execEvTimeout (now : Time) (s : State) : Result := react (.timeout now) s

/-- `EV.STOP_REQ` (R79). -/
def execEvStopReq (now : Time) (s : State) : Result := react (.stopReq now) s

/-- `EV.FAIL` (R79). -/
def execEvFail (now : Time) (s : State) : Result := react (.fail now) s

/-- `FRAME` (R70) delivered: its marker is the configured one. -/
def execFrame (p : List Byte) (c : Byte) (now : Time) (s : State) : Result :=
  runEvents (bytesAt now (frameBytes s.cfg.marker p c)) s

/-- `PAYLOAD` (R71) delivered. -/
def execPayload (src : SourceId) (ts : Time) (v : List Int) (now : Time) (s : State) : Result :=
  runEvents (bytesAt now (payloadBytes src ts v)) s

/-- The events of a text line (R78): its bytes, and the TIMEOUT that ends an unterminated one. -/
def textEvents (x : Byte) (ys : List Byte) (terminated : Bool) (now : Time) : List Event :=
  bytesAt now (textBytes x ys terminated) ++ (if terminated then [] else [.timeout now])

/-- `TEXTLINE` (R78) delivered. -/
def execTextLine (x : Byte) (ys : List Byte) (terminated : Bool) (now : Time) (s : State) : Result :=
  runEvents (textEvents x ys terminated now) s

end Sys2Proof.Machine
end

