-- ==== Sys2Proof/Machine/Dispatch.lean ====
section
/-! DEFINITION. One arm per constructor of Instr: a direct call of its meaning. -/

namespace Sys2Proof.Machine

def exec (i : Instr) (s : State) : Host.Outcome State Fault Refusal :=
  match i with
  | .start cfg now => Sys2Proof.Machine.execStart cfg now s
  | .nopIdle e => Sys2Proof.Machine.execNopIdle e s
  | .fail now => Sys2Proof.Machine.execFail now s
  | .stopNow now => Sys2Proof.Machine.execStopNow now s
  | .stopPend now => Sys2Proof.Machine.execStopPend now s
  | .huntMarker b now => Sys2Proof.Machine.execHuntMarker b now s
  | .huntEol b now => Sys2Proof.Machine.execHuntEol b now s
  | .huntText b now => Sys2Proof.Machine.execHuntText b now s
  | .huntTimeout now => Sys2Proof.Machine.execHuntTimeout now s
  | .lineEol b now => Sys2Proof.Machine.execLineEol b now s
  | .lineText b now => Sys2Proof.Machine.execLineText b now s
  | .lineTimeout now => Sys2Proof.Machine.execLineTimeout now s
  | .lenLo b now => Sys2Proof.Machine.execLenLo b now s
  | .len0Timeout now => Sys2Proof.Machine.execLen0Timeout now s
  | .lenHi b now => Sys2Proof.Machine.execLenHi b now s
  | .lenHiOob b now => Sys2Proof.Machine.execLenHiOob b now s
  | .len1Timeout now => Sys2Proof.Machine.execLen1Timeout now s
  | .payByte b now => Sys2Proof.Machine.execPayByte b now s
  | .payTimeout now => Sys2Proof.Machine.execPayTimeout now s
  | .chkByte b now => Sys2Proof.Machine.execChkByte b now s
  | .chkTimeout now => Sys2Proof.Machine.execChkTimeout now s
  | .skipByte b now => Sys2Proof.Machine.execSkipByte b now s
  | .skipTimeout now => Sys2Proof.Machine.execSkipTimeout now s
  | .decode payload checksum now => Sys2Proof.Machine.execDecode payload checksum now s
  | .filter source => Sys2Proof.Machine.execFilter source s
  | .meterInc source => Sys2Proof.Machine.execMeterInc source s
  | .meterFlush now => Sys2Proof.Machine.execMeterFlush now s
  | .endAttempt now => Sys2Proof.Machine.execEndAttempt now s
  | .frame payload checksum now => Sys2Proof.Machine.execFrame payload checksum now s
  | .payload source deviceTs samples now => Sys2Proof.Machine.execPayload source deviceTs samples now s
  | .textLine first text terminated now => Sys2Proof.Machine.execTextLine first text terminated now s
  | .evStart cfg now => Sys2Proof.Machine.execEvStart cfg now s
  | .evByte b now => Sys2Proof.Machine.execEvByte b now s
  | .evTimeout now => Sys2Proof.Machine.execEvTimeout now s
  | .evStopReq now => Sys2Proof.Machine.execEvStopReq now s
  | .evFail now => Sys2Proof.Machine.execEvFail now s

end Sys2Proof.Machine
end

