-- ==== Sys2Proof/Machine/Select.lean ====
section
/-! DEFINITION. How a step selects its operation: the selector key of the state and the event (30_encoding R91), and
what a table word takes to be selected next. -/

namespace Sys2Proof.Machine

/-- The suggested phase codes (10_state R22). -/
def Phase.code : Phase → BitVec 3
  | .hunt => 0
  | .line => 1
  | .len0 => 2
  | .len1 => 3
  | .payload => 4
  | .check => 5
  | .skip => 6

/-- The phase of a code; 7 is none's. -/
def phaseOf (c : BitVec 3) : Option Phase :=
  match c.toNat with
  | 0 => some .hunt
  | 1 => some .line
  | 2 => some .len0
  | 3 => some .len1
  | 4 => some .payload
  | 5 => some .check
  | 6 => some .skip
  | _ => none

/-- `key[6] = (life = RUN)`, `key[5:3] =` phase code, `key[2:0] =` event kind (R91). -/
def keyOf (life : Life) (phase : Phase) (e : Event) : Key :=
  ((if life = .run then 1 else 0 : BitVec 1) ++ phase.code ++ e.kind)

/-- The comparator inputs in a state. -/
def State.selCtx (s : State) : SelCtx :=
  { marker := s.cfg.marker, minPayload := s.cfg.minPayload, maxPayload := s.cfg.maxPayload, lenLo := s.lenLo }

/-- The operation an event selects in a state. -/
def State.operation (s : State) (e : Event) : Option Instr := select s.selCtx (keyOf s.life s.phase e) e

/-- A life with the key's bit 6. -/
def lifeFor (running : Bool) (l : Life) : Life :=
  if running then .run else if l = .run then .off else l

/-- The state in which event `e` comes next and selects under `key` and the decoder's comparator inputs: the key's
life bit and phase, a `cnt` a SKIP can be in, and the event in front of those presented (log entry 15). -/
def State.presented (s : State) (key : Key) (e : Event) : State :=
  { s with
    life := lifeFor (key.getLsbD 6) s.life
    phase := (phaseOf (key.extractLsb' 3 3)).getD s.phase
    cnt := if key.extractLsb' 3 3 = 6 ∧ s.cnt = 0 then 1 else s.cnt
    len := s.len &&& 0xFF00
    cfg := { s.cfg with marker := SelCtx.default.marker, minPayload := SelCtx.default.minPayload,
                        maxPayload := SelCtx.default.maxPayload }
    input := e :: s.input }

/-- The placing of a table word (log entry 15); a word that is no OP image places nothing. -/
def placeTableWord (s : State) (nbits w : Nat) : State :=
  match tableEvent nbits w with
  | some (key, e) => s.presented key e
  | none => s

end Sys2Proof.Machine
end

