-- ==== Sys2Proof/Machine/Step.lean ====
section
/-! DEFINITION. One step: the first event presented is consumed and the operation it selects is executed
(00_scope R6, 44_system R181). -/

namespace Sys2Proof.Machine

/-- One step (R6, R181); with no event presented the engine takes none (93_implementation_defined U29). -/
def step (s : State) : Host.Outcome State Fault Refusal :=
  match s.input with
  | [] => .fault .noEvent
  | e :: rest =>
    match State.operation { s with input := rest } e with
    | some i => exec i { s with input := rest }
    | none => .refused .noOperation

/-- `s` with a table word placed so that the next step takes it (log entry 15). -/
def State.withFetchWord (s : State) (nbits w : Nat) : State := placeTableWord s nbits w

end Sys2Proof.Machine
end

