-- ==== Sys2Proof/Machine/ByteSource.lean ====
section
/-! DEFINITION. The Byte Source boundary: the read outstanding in each phase (40_scanner R122, 10_state R36) and how a
read's result becomes events (60_exceptions R220, R221). -/

namespace Sys2Proof.Machine

/-- What a read asks for. -/
inductive ReadSize
  | bytes (n : Nat)
  | lineEnd
deriving DecidableEq, Repr

/-- A read: its size, and the timeout passed with it (R220). -/
structure ReadRequest where
  size : ReadSize
  timeoutMs : Nat
deriving DecidableEq, Repr

/-- The read the document's software has outstanding (R122); none outside a session (R180). -/
def State.outstandingRead (s : State) : Option ReadRequest :=
  if s.life = .run then
    some
      { size :=
          match s.phase with
          | .hunt => .bytes 1
          | .line => .lineEnd
          | .len0 => .bytes 2
          | .len1 => .bytes 2
          | .payload => .bytes s.len.toNat
          | .check => .bytes 1
          | .skip => .bytes (s.len.toNat + 1)
        timeoutMs := s.cfg.readTimeoutMs }
  else none

/-- A read returned all it asked for. -/
def ReadSize.satisfied (got : List Byte) : ReadSize → Bool
  | .bytes n => decide (n ≤ got.length)
  | .lineEnd => got.getLast? == some lineTerm

/-- A read's result as events (R221): its bytes in order, and one TIMEOUT where it returned fewer than asked for. -/
def readEvents (size : ReadSize) (got : List Byte) (now : Time) : List Event :=
  got.map (fun b => .byte b now) ++ (if size.satisfied got then [] else [.timeout now])

end Sys2Proof.Machine
end

