-- ==== Sys2Proof/Machine/Report.lean ====
section
/-! DEFINITION. The output channels (30_encoding R80), the error names and codes (R81, 60_exceptions R200), and the
scanner's contract results (40_scanner R118), and the sink's rows (R88, 60_exceptions R223, R224), transcribed for reference. -/

namespace Sys2Proof.Machine

/-- The three output channels (R80). -/
inductive Channel
  | diag | record | rate
deriving DecidableEq, Repr

/-- The error names of R81. -/
inductive ErrorName
  | transportTimeout | framingDesync | truncatedFrame | lengthOutOfBounds | checksumMismatch | headerError
  | payloadLengthError | sourceNotAllowed | byteSourceFailure
deriving DecidableEq, Repr

/-- The channel an output goes out on (R80). -/
def Output.channel : Output → Channel
  | .noData => .diag
  | .desync _ _ => .diag
  | .frameDropped _ => .diag
  | .frameAccepted => .diag
  | .stopped => .diag
  | .fatal _ => .diag
  | .record _ => .record
  | .rateSnapshot _ _ => .rate

/-- The numeric codes of R81. -/
def ErrorName.code : ErrorName → Nat
  | .transportTimeout => 0
  | .framingDesync => 1
  | .truncatedFrame => 2
  | .lengthOutOfBounds => 3
  | .checksumMismatch => 4
  | .headerError => 5
  | .payloadLengthError => 6
  | .sourceNotAllowed => 7
  | .byteSourceFailure => 8

/-- The name of a drop's reason (R81). -/
def DropReason.errorName : DropReason → ErrorName
  | .truncatedFrame => .truncatedFrame
  | .lengthOutOfBounds _ => .lengthOutOfBounds
  | .checksumMismatch _ _ => .checksumMismatch
  | .headerError => .headerError
  | .payloadLengthError => .payloadLengthError
  | .sourceNotAllowed _ => .sourceNotAllowed

/-- The error an output reports, if it reports one (R200). -/
def Output.errorName : Output → Option ErrorName
  | .noData => some .transportTimeout
  | .desync _ _ => some .framingDesync
  | .frameDropped r => some r.errorName
  | .fatal _ => some .byteSourceFailure
  | .frameAccepted => none
  | .stopped => none
  | .record _ => none
  | .rateSnapshot _ _ => none

/-! ### The kinds of attempt -/

/-- How an attempt ends, in the terms of the scanner's contract (40_scanner R118). -/
inductive AttemptEnd
  | candidateFrame | noFrame | resynchronised | skipped
deriving DecidableEq, Repr

/-- The attempt an operation ends, if it ends one (40_scanner R118); `skipByte` ends one with its last byte only. -/
def attemptEnd : Instr → Option AttemptEnd
  | .chkByte _ _ => some .candidateFrame
  | .huntTimeout _ => some .noFrame
  | .len0Timeout _ => some .noFrame
  | .len1Timeout _ => some .noFrame
  | .payTimeout _ => some .noFrame
  | .chkTimeout _ => some .noFrame
  | .huntEol _ _ => some .resynchronised
  | .lineEol _ _ => some .resynchronised
  | .lineTimeout _ => some .resynchronised
  | .skipByte _ _ => some .skipped
  | .skipTimeout _ => some .skipped
  | _ => none

/-! ### Rows at the Record Sink boundary -/

/-- A nibble's lower-case hexadecimal digit (R88). -/
def hexDigit (n : Nat) : Char := "0123456789abcdef".toList.getD n '0'

/-- Two digits per byte (R88). -/
def hexByte (b : Byte) : List Char := [hexDigit (b.toNat / 16), hexDigit (b.toNat % 16)]

/-- The colon-separated rendering of a SourceId, byte 0 first (R88). -/
def renderSource (src : SourceId) : List Char := List.intercalate [':'] ((sourceBytes src).map hexByte)

/-- A sample in decimal. -/
def renderSample (x : Int) : List Char :=
  if x < 0 then '-' :: Nat.toDigits 10 x.natAbs else Nat.toDigits 10 x.natAbs

/-- The bracketed, comma-separated list of samples (R88). -/
def renderSamples (v : List Int) : List Char := '[' :: List.intercalate [',', ' '] (v.map renderSample) ++ [']']

/-- A record row's four columns (R88, R223). -/
def recordRow (r : Record) : List (List Char) :=
  [renderSource r.source, Nat.toDigits 10 r.deviceTimestamp.toNat, Nat.toDigits 10 r.hostReceiveTimestamp.toNat,
    renderSamples r.samples]

/-- The rows of a snapshot: one per entry, all with the snapshot's window end (R224). -/
def rateRows (windowEnd : Time) (counts : List (SourceId × Count)) : List (Time × List Char × Count) :=
  counts.map (fun e => (windowEnd, renderSource e.1, e.2))

end Sys2Proof.Machine
end

