-- ==== Sys2Proof/Machine/Stream.lean ====
section
/-! DEFINITION. The stream notation of 30_encoding R86 and its pseudo-instructions (R87), as the events they stand for. -/

namespace Sys2Proof.Machine

/-- The tokens of R86 and the pseudo-instructions of R87. -/
inductive Token
  | hex (b : Byte)
  | text (s : List Char)
  | tick
  | stop
  | fail
  | start (cfg : Config)
  | clock (t : Time)
  | frame (src : SourceId) (ts : Time) (v : List Int)
  | badsum (src : SourceId) (ts : Time) (v : List Int) (m : Byte)
  | textLine (s : List Char)
  | oob (n : Half)
deriving DecidableEq, Repr

/-- ASCII codes (R86). -/
def ascii (s : List Char) : List Byte := s.map (fun c => BitVec.ofNat 8 c.toNat)

/-- `BADSUM(f, m)`: the last byte replaced by `last XOR m` (R87). -/
def corruptLast (f : List Byte) (m : Byte) : List Byte := f.dropLast ++ [f.getLastD 0 ^^^ m]

/-- `OOB(n)`: `A5` and the two bytes of `n`, whatever marker is configured (R87). -/
def oobHeader (n : Half) : List Byte := 0xA5 :: halfBytes n.toNat

/-- One token at clock `now`, its events, and the clock after it. `FRAME` and `BADSUM` begin with `marker`, the
`START_MARKER` of R89; which one that is in a stream is the model's (DESIGN CHOICE, log entry 22). -/
def Token.events (marker : Byte) (now : Time) : Token → List Event × Time
  | .hex b => ([.byte b now], now)
  | .text s => (bytesAt now (ascii s), now)
  | .tick => ([.timeout now], now)
  | .stop => ([.stopReq now], now)
  | .fail => ([.fail now], now)
  | .start cfg => ([.start cfg now], now)
  | .clock t => ([], t)
  | .frame src ts v => (bytesAt now (encodeFrame marker src ts v), now)
  | .badsum src ts v m => (bytesAt now (corruptLast (encodeFrame marker src ts v) m), now)
  | .textLine s => (bytesAt now (ascii s ++ [lineTerm]), now)
  | .oob n => (bytesAt now (oobHeader n), now)

/-- The `START_MARKER` that later frames of the stream carry: a START token's own, else the one before (DESIGN CHOICE,
log entry 22). -/
def Token.markerAfter (marker : Byte) : Token → Byte
  | .start cfg => cfg.marker
  | _ => marker

/-- A token sequence as events, from clock `now` and `START_MARKER = marker` on. -/
def expand (marker : Byte) (now : Time) : List Token → List Event
  | [] => []
  | t :: ts => (t.events marker now).1 ++ expand (t.markerAfter marker) (t.events marker now).2 ts

end Sys2Proof.Machine
end

