-- ==== Sys2Proof/Safety.lean ====
section
/-! DEFINITION. The terms claims are stated in: the invariants of 10_state R38, the operation map of 30_encoding R82 and
R90 written out, the outputs of an attempt end, the host's duties (60_exceptions R218, R230). -/

namespace Sys2Proof.Machine

/-! ### The invariants of R38 -/

/-- Rows `HUNT` and `LEN0`. -/
abbrev ClearFrame (s : State) : Prop := s.len = 0 ∧ s.cnt = 0 ∧ s.xorAcc = 0 ∧ s.lbuf = []

/-- Row `LINE`. -/
abbrev LineOpen (s : State) : Prop :=
  s.lbuf ≠ [] ∧ lineTerm ∉ s.lbuf ∧ s.lbuf.head? ≠ some s.cfg.marker ∧ s.len = 0 ∧ s.cnt = 0 ∧ s.xorAcc = 0

/-- Row `LEN1`, with `xor_acc = 0`, which row `SKIP` needs (DEDUCED, log entry 17). -/
abbrev LowLengthHeld (s : State) : Prop :=
  s.len.extractLsb' 8 8 = (0 : Byte) ∧ s.cnt = 0 ∧ s.xorAcc = 0 ∧ s.lbuf = []

/-- The part rows `PAYLOAD` and `CHECK` share: the length is in bounds, and the cells below `cnt` are written and have
`xor_acc` as their exclusive-or. -/
abbrev FrameHeld (s : State) : Prop :=
  lenInBounds s.cfg.minPayload s.cfg.maxPayload s.len = true ∧
    (s.pbuf.gather 0 s.cnt.toNat).map xor8 = some s.xorAcc ∧ s.lbuf = []

/-- Row `SKIP`. -/
abbrev SkipHeld (s : State) : Prop :=
  lenInBounds s.cfg.minPayload s.cfg.maxPayload s.len = false ∧ 1 ≤ s.cnt.toNat ∧ s.cnt.toNat ≤ s.len.toNat + 1 ∧
    s.xorAcc = 0 ∧ s.lbuf = []

/-- The table of R38, row by row. -/
abbrev PhaseInv (s : State) : Prop :=
  (s.phase = .hunt → ClearFrame s) ∧ (s.phase = .line → LineOpen s) ∧ (s.phase = .len0 → ClearFrame s) ∧
    (s.phase = .len1 → LowLengthHeld s) ∧ (s.phase = .payload → FrameHeld s ∧ s.cnt.toNat < s.len.toNat) ∧
    (s.phase = .check → FrameHeld s ∧ s.cnt.toNat = s.len.toNat) ∧ (s.phase = .skip → SkipHeld s)

/-- The stores are in their canonical form and hold only cells and sources there are. -/
abbrev StoresWf (s : State) : Prop :=
  Memory.wf s.pbuf ∧ (∀ c ∈ s.pbuf, c.1 < s.cfg.maxPayload.toNat) ∧ RateWf s.rate ∧
    (∀ e ∈ s.rate, filterSource s.cfg.allow e.1 = true)

/-- R38 whole, with the canonical form of the stores: while `life = RUN` its table holds, and a pending stop means that
an attempt is in flight. -/
abbrev Inv (s : State) : Prop :=
  StoresWf s ∧ (s.life = .run → PhaseInv s ∧ (s.stopPending = true → s.phase ≠ .hunt))

/-! ### The operation map, written out -/

/-- The `BYTE` rows of R82. -/
def byteOperation (s : State) (b : Byte) (now : Time) : Instr :=
  match s.phase with
  | .hunt => if b = s.cfg.marker then .huntMarker b now else if b = lineTerm then .huntEol b now else .huntText b now
  | .line => if b = lineTerm then .lineEol b now else .lineText b now
  | .len0 => .lenLo b now
  | .len1 =>
    if s.cfg.minPayload.toNat ≤ (s.declaredLen b).toNat ∧ (s.declaredLen b).toNat ≤ s.cfg.maxPayload.toNat then
      .lenHi b now
    else .lenHiOob b now
  | .payload => .payByte b now
  | .check => .chkByte b now
  | .skip => .skipByte b now

/-- The `TIMEOUT` rows of R82. -/
def timeoutOperation (s : State) (now : Time) : Instr :=
  match s.phase with
  | .hunt => .huntTimeout now
  | .line => .lineTimeout now
  | .len0 => .len0Timeout now
  | .len1 => .len1Timeout now
  | .payload => .payTimeout now
  | .check => .chkTimeout now
  | .skip => .skipTimeout now

/-- The selection algorithm of R90, its six tests in order. -/
def operationOf (s : State) (e : Event) : Instr :=
  match e with
  | .start cfg now => .start cfg now
  | .fail now => if s.life ≠ .run then .nopIdle e else .fail now
  | .stopReq now => if s.life ≠ .run then .nopIdle e else if s.phase = .hunt then .stopNow now else .stopPend now
  | .timeout now => if s.life ≠ .run then .nopIdle e else timeoutOperation s now
  | .byte b now => if s.life ≠ .run then .nopIdle e else byteOperation s b now

/-! ### What an attempt end emits and leaves -/

/-- The snapshot of R162, if the flush condition holds. -/
def flushOutputs (now : Time) (s : State) : List Output :=
  if flushDue now s.lastFlush s.cfg.rateWindowMs then [.rateSnapshot now (snapshot s.rate)] else []

/-- `Stopped`, if a stop is pending (R117). -/
def stopOutputs (s : State) : List Output := if s.stopPending then [.stopped] else []

/-- The outputs of `END_ATTEMPT` (R117): at most one `RateSnapshot`, then at most one `Stopped`. -/
def attemptOutputs (now : Time) (s : State) : List Output := flushOutputs now s ++ stopOutputs s

/-- `life` after `END_ATTEMPT` (R117). -/
def lifeAfter (s : State) : Life := if s.stopPending then .stopped else s.life

/-- `rate` after a flush check (R162). -/
def rateAfter (now : Time) (s : State) : List (SourceId × Count) :=
  if flushDue now s.lastFlush s.cfg.rateWindowMs then [] else s.rate

/-- `last_flush` after a flush check (R162). -/
def lastFlushAfter (now : Time) (s : State) : Time :=
  if flushDue now s.lastFlush s.cfg.rateWindowMs then now else s.lastFlush

/-- The state an attempt that has emitted `os` ends in (R117): `END_ATTEMPT`'s writes, `os`, then its outputs. -/
def afterAttempt (now : Time) (os : List Output) (s : State) : State :=
  { s with
    phase := .hunt, len := 0, cnt := 0, xorAcc := 0, lbuf := [], rate := rateAfter now s,
    lastFlush := lastFlushAfter now s, life := lifeAfter s, out := s.out ++ os ++ attemptOutputs now s }

/-! ### What outputs are and who emits them -/

/-- The table of 60_exceptions R200: the operations that raise an error. -/
def raisedBy : ErrorName → Instr → Bool
  | .transportTimeout, .huntTimeout _ => true
  | .framingDesync, .huntEol _ _ => true
  | .framingDesync, .lineEol _ _ => true
  | .framingDesync, .lineTimeout _ => true
  | .truncatedFrame, .len0Timeout _ => true
  | .truncatedFrame, .len1Timeout _ => true
  | .truncatedFrame, .payTimeout _ => true
  | .truncatedFrame, .chkTimeout _ => true
  | .lengthOutOfBounds, .lenHiOob _ _ => true
  | .checksumMismatch, .chkByte _ _ => true
  | .headerError, .chkByte _ _ => true
  | .payloadLengthError, .chkByte _ _ => true
  | .sourceNotAllowed, .chkByte _ _ => true
  | .byteSourceFailure, .fail _ => true
  | _, _ => false

/-- A snapshot of the meter (30_encoding R80). -/
def Output.isSnapshot : Output → Bool
  | .rateSnapshot _ _ => true
  | _ => false

/-- A record of one source (30_encoding R80). -/
def Output.isRecordOf (src : SourceId) : Output → Bool
  | .record r => r.source == src
  | _ => false

/-! ### Sessions, hosts and runs -/

/-- A capture session is over (44_system R182). -/
abbrev SessionOver (s : State) : Prop := s.life = .stopped ∨ s.life = .failed

/-- The host's duty on its clock: `now` never decreases (60_exceptions R218, R230). -/
def clockMonotone : Time → List Event → Bool
  | _, [] => true
  | t, e :: es => decide (t.toNat ≤ e.now.toNat) && clockMonotone e.now es

/-- `n` steps, up to the first fault. -/
def stepTimes : Nat → State → Result
  | 0, s => .next s
  | n + 1, s =>
    match step s with
    | .next t => stepTimes n t
    | .fault f => .fault f
    | .refused r => .refused r

/-- An instruction executed again and again. -/
def repeatExec (i : Instr) : Nat → State → Result
  | 0, s => .next s
  | n + 1, s =>
    match exec i s with
    | .next t => repeatExec i n t
    | .fault f => .fault f
    | .refused r => .refused r

/-- One instruction after another. -/
def execThen (i j : Instr) (s : State) : Result :=
  match exec i s with
  | .next t => exec j t
  | .fault f => .fault f
  | .refused r => .refused r

end Sys2Proof.Machine
end

