-- ==== Sys2Proof/Certificates/Slice0/Obligations.lean ====
section
/-! DEFINITION. The statements for the provers. -/

open Sys2Proof Sys2Proof.Machine

/-! ### Encoding, selection and the step -/

/-- R6, R181: a step consumes the first event presented and executes the operation it selects, on the state with that
event taken off the input; with no event presented it takes none (U29). -/
def Obligations.StepRunsSelectedOperation : Prop :=
  ∀ s : State,
    (s.input = [] → step s = .fault .noEvent) ∧
      ∀ e rest i, s.input = e :: rest → State.operation { s with input := rest } e = some i →
        step s = exec i { s with input := rest }

/-- Log entry 15: a table word that is an OP image and names a phase is what the next step executes. -/
def Obligations.FetchedWordRunsDecodedInstruction : Prop :=
  ∀ (s : State) (nbits w : Nat) (key : Key) (e : Event) (i : Instr),
    tableEvent nbits w = some (key, e) → key.extractLsb' 3 3 ≠ 7 → decodeTableWord nbits w = some i →
      step (s.withFetchWord nbits w) = exec i { s.withFetchWord nbits w with input := s.input }

/-- Words written out from the table's match column and the wire patterns of R70, R71, R78, R79. -/
def Obligations.WrittenOutWordsDecode : Prop :=
  decodeTableWord 8 0x00 = some (.start Config.default 0) ∧ decodeTableWord 8 0x44 = some (.fail 0) ∧
    decodeTableWord 8 0x43 = some (.stopNow 0) ∧ decodeTableWord 8 0x59 = some (.lenHiOob 0 0) ∧
    decodeTableWord 16 0x1059 = some (.lenHiOob 0x10 0) ∧ decodeTableWord 16 0x0159 = some (.lenHi 0x01 0) ∧
    decodeTableWord 16 0xA541 = some (.huntMarker 0xA5 0) ∧ decodeTableWord 8 0x79 = none ∧
    decode SelCtx.default Config.default
        [0xC0, 0, 0, 0, 0, 0, 0, 0, 0, 0xA5, 0x03, 0x00, 0x01, 0x02, 0x04, 0x07, 0x62] =
      .ok (.frame [0x01, 0x02, 0x04] 0x07 0, [0x62])

/-- Decoding the image of a well-formed instruction gives it back, with what follows it; an internal procedure has no
image. -/
def Obligations.DecodeOfEncodeIsInstruction : Prop :=
  ∀ (ctx : SelCtx) (cfgIn : Config) (i : Instr) (bs rest : List Byte),
    i.wellFormed ctx = true → i.cfgFits cfgIn = true → encode ctx i = some bs →
      (i.selfDelimiting = true ∨ rest = []) → decode ctx cfgIn (bs ++ rest) = .ok (i, rest)

/-- Whatever decodes is well formed, stands for the configuration presented, and is no internal procedure (R82: "never
selected by an event"). -/
def Obligations.DecodedInstructionIsWellFormed : Prop :=
  ∀ (ctx : SelCtx) (cfgIn : Config) (bs rest : List Byte) (i : Instr),
    decode ctx cfgIn bs = .ok (i, rest) →
      i.wellFormed ctx = true ∧ i.cfgFits cfgIn = true ∧ (encode ctx i).isSome = true

/-- R90, R91: the first matching row of the table is the operation the six tests of R90 give, in every state and for
every event, and it is well formed under the state's comparator inputs. -/
def Obligations.TableSelectsOperationOfSixTests : Prop :=
  ∀ (s : State) (e : Event),
    s.operation e = some (operationOf s e) ∧ (operationOf s e).wellFormed s.selCtx = true

/-- R79, R181: an event row is the engine's reaction to the event: executing it is executing the operation selected. -/
def Obligations.EventReactionIsSelectedOperation : Prop :=
  ∀ (s : State) (e : Event), exec e.instr s = exec (operationOf s e) s

/-- R181: the run of a machine whose input begins with `es` is the fold of the reactions to `es`. -/
def Obligations.RunIsFoldOfReactions : Prop :=
  ∀ (es rest : List Event) (s : State),
    stepTimes es.length { s with input := es ++ rest } = runEvents es { s with input := rest }

/-! ### System operations -/

/-- R175: START in any `life` and `phase` loads the configuration and resets; for an implementation that can load it. -/
def Obligations.StartLoadsConfigurationAndResets : Prop :=
  ∀ (s : State) (cfg : Config) (now : Time),
    s.operation (.start cfg now) = some (.start cfg now) ∧
      (admits s.impl cfg = true →
        exec (.start cfg now) s =
          .next { s with cfg := cfg, life := .run, phase := .hunt, len := 0, cnt := 0, xorAcc := 0, pbuf := [],
                         lbuf := [], rate := [], lastFlush := now, stopPending := false, rejCount := 0 })

/-- U23, R154 with log entry 4: a START whose configuration does not fit leaves the engine as it was, and it fits
exactly when the distinct identifiers and the payload bound fit the capacities. -/
def Obligations.StartBeyondCapacityKeepsState : Prop :=
  ∀ (s : State) (cfg : Config) (now : Time),
    (admits s.impl cfg = false → exec (.start cfg now) s = .next s) ∧
      (admits s.impl cfg = true ↔
        (∀ n, s.impl.allowCapacity = some n → (allowIds cfg.allow).dedup.length ≤ n) ∧
          ∀ n, s.impl.pbufCapacity = some n → cfg.maxPayload.toNat ≤ n)

/-- R180: outside a session any event but START selects NOP.IDLE, which changes nothing and emits nothing. -/
def Obligations.IdleOutsideSession : Prop :=
  ∀ (s : State) (e : Event),
    (s.life ≠ .run → e.isStart = false → s.operation e = some (.nopIdle e)) ∧ exec (.nopIdle e) s = .next s

/-- R179: FAIL in any phase of a session ends it at once and emits the fatal error alone. -/
def Obligations.FailEndsSessionAtOnce : Prop :=
  ∀ (s : State) (now : Time),
    (s.life = .run → s.operation (.fail now) = some (.fail now)) ∧
      exec (.fail now) s = .next { s with life := .failed, out := s.out ++ [.fatal .byteSourceFailure] }

/-- R176, R177: a stop request in HUNT stops the session at once, with no snapshot; one while a read is in flight is
remembered and nothing else changes. -/
def Obligations.StopIsImmediateInHuntElseRemembered : Prop :=
  ∀ (s : State) (now : Time),
    (s.life = .run →
        s.operation (.stopReq now) = some (if s.phase = .hunt then .stopNow now else .stopPend now)) ∧
      exec (.stopNow now) s = .next { s with life := .stopped, out := s.out ++ [.stopped] } ∧
      exec (.stopPend now) s = .next { s with stopPending := true }

/-- The four event rows that complete in every state: their next state, case by case (R79 with R175, R176, R177, R179,
R180 and the TIMEOUT rows of R82). -/
def Obligations.EventRowsComplete : Prop :=
  ∀ (s : State) (cfg : Config) (now : Time),
    exec (.evStart cfg now) s =
        .next (if admits s.impl cfg = true then
            { s with cfg := cfg, life := .run, phase := .hunt, len := 0, cnt := 0, xorAcc := 0, pbuf := [],
                     lbuf := [], rate := [], lastFlush := now, stopPending := false, rejCount := 0 }
          else s) ∧
      exec (.evFail now) s =
        .next (if s.life = .run then { s with life := .failed, out := s.out ++ [.fatal .byteSourceFailure] } else s) ∧
      exec (.evStopReq now) s =
        .next (if s.life = .run then
            if s.phase = .hunt then { s with life := .stopped, out := s.out ++ [.stopped] }
            else { s with stopPending := true }
          else s) ∧
      exec (.evTimeout now) s =
        .next (if s.life = .run then
            afterAttempt now
              (match s.phase with
                | .hunt => [.noData]
                | .line => [.desync s.lbuf false]
                | .skip => []
                | .len0 | .len1 | .payload | .check => [.frameDropped .truncatedFrame]) s
          else s)

/-- The byte event row completes in every state that meets R38: it answers what the selected operation answers. -/
def Obligations.ByteEventCompletesUnderInvariants : Prop :=
  ∀ (s : State) (b : Byte) (now : Time), Inv s →
    ∃ t, exec (.evByte b now) s = .next t ∧ exec (operationOf s (.byte b now)) s = .next t ∧
      (s.life ≠ .run → t = s) ∧ t.cfg = s.cfg ∧ t.stopPending = s.stopPending ∧ t.input = s.input ∧ t.ret = s.ret

/-! ### The Frame Scanner -/

/-- R100, R101, R102: the marker test comes first, then the terminator test. -/
def Obligations.HuntTestsMarkerThenTerminator : Prop :=
  ∀ (s : State) (b : Byte) (now : Time),
    (s.life = .run → s.phase = .hunt →
        (b = s.cfg.marker → s.operation (.byte b now) = some (.huntMarker b now)) ∧
          (b ≠ s.cfg.marker → b ≠ 0x0A → s.operation (.byte b now) = some (.huntText b now)) ∧
          (b ≠ s.cfg.marker → b = 0x0A → s.operation (.byte b now) = some (.huntEol b now))) ∧
      exec (.huntMarker b now) s = .next { s with phase := .len0 } ∧
      exec (.huntText b now) s = .next { s with lbuf := [b], phase := .line } ∧
      exec (.huntEol b now) s = .next (afterAttempt now [.desync [0x0A] true] s)

/-- R104, R105, R106. -/
def Obligations.LineGrowsUntilTerminatorOrTimeout : Prop :=
  ∀ (s : State) (b : Byte) (now : Time),
    (s.life = .run → s.phase = .line →
        s.operation (.byte b now) = some (if b = 0x0A then .lineEol b now else .lineText b now) ∧
          s.operation (.timeout now) = some (.lineTimeout now)) ∧
      exec (.lineText b now) s = .next { s with lbuf := s.lbuf ++ [b] } ∧
      exec (.lineEol b now) s = .next (afterAttempt now [.desync (s.lbuf ++ [0x0A]) true] s) ∧
      exec (.lineTimeout now) s = .next (afterAttempt now [.desync s.lbuf false] s)

/-- R103, R106, R110, R111, R113, R114, R116: the TIMEOUT row of each of the seven phases. -/
def Obligations.TimeoutEndsAttemptInEveryPhase : Prop :=
  ∀ (s : State) (now : Time),
    (s.life = .run →
        (s.phase = .hunt → s.operation (.timeout now) = some (.huntTimeout now)) ∧
          (s.phase = .line → s.operation (.timeout now) = some (.lineTimeout now)) ∧
          (s.phase = .len0 → s.operation (.timeout now) = some (.len0Timeout now)) ∧
          (s.phase = .len1 → s.operation (.timeout now) = some (.len1Timeout now)) ∧
          (s.phase = .payload → s.operation (.timeout now) = some (.payTimeout now)) ∧
          (s.phase = .check → s.operation (.timeout now) = some (.chkTimeout now)) ∧
          (s.phase = .skip → s.operation (.timeout now) = some (.skipTimeout now))) ∧
      exec (.huntTimeout now) s = .next (afterAttempt now [.noData] s) ∧
      exec (.lineTimeout now) s = .next (afterAttempt now [.desync s.lbuf false] s) ∧
      exec (.len0Timeout now) s = .next (afterAttempt now [.frameDropped .truncatedFrame] s) ∧
      exec (.len1Timeout now) s = .next (afterAttempt now [.frameDropped .truncatedFrame] s) ∧
      exec (.payTimeout now) s = .next (afterAttempt now [.frameDropped .truncatedFrame] s) ∧
      exec (.chkTimeout now) s = .next (afterAttempt now [.frameDropped .truncatedFrame] s) ∧
      exec (.skipTimeout now) s = .next (afterAttempt now [] s)

/-- R107. -/
def Obligations.LowLengthByteIsStored : Prop :=
  ∀ (s : State) (b : Byte) (now : Time),
    (s.life = .run → s.phase = .len0 → s.operation (.byte b now) = some (.lenLo b now)) ∧
      exec (.lenLo b now) s = .next { s with len := BitVec.ofNat 16 b.toNat, phase := .len1 }

/-- R108: `L = len[7:0] + 256 * b` within the bounds. -/
def Obligations.HighLengthByteInBoundsOpensPayload : Prop :=
  ∀ (s : State) (b : Byte) (now : Time) (L : Nat), L = s.len.toNat % 256 + 256 * b.toNat →
    (s.life = .run → s.phase = .len1 → s.cfg.minPayload.toNat ≤ L → L ≤ s.cfg.maxPayload.toNat →
        s.operation (.byte b now) = some (.lenHi b now)) ∧
      exec (.lenHi b now) s =
        .next { s with len := BitVec.ofNat 16 L, cnt := 0, xorAcc := 0,
                       phase := if 1 ≤ L then .payload else .check }

/-- R109: `L` out of bounds; the skip count is `L + 1`, which 17 bits hold. -/
def Obligations.HighLengthByteOutOfBoundsOpensSkip : Prop :=
  ∀ (s : State) (b : Byte) (now : Time) (L : Nat), L = s.len.toNat % 256 + 256 * b.toNat →
    (s.life = .run → s.phase = .len1 → L < s.cfg.minPayload.toNat ∨ s.cfg.maxPayload.toNat < L →
        s.operation (.byte b now) = some (.lenHiOob b now)) ∧
      (BitVec.ofNat 17 (L + 1)).toNat = L + 1 ∧
      exec (.lenHiOob b now) s =
        .next { s with len := BitVec.ofNat 16 L, cnt := BitVec.ofNat 17 (L + 1), phase := .skip,
                       out := s.out ++ [.frameDropped (.lengthOutOfBounds (BitVec.ofNat 16 L))] }

/-- R112: the cell at `cnt` takes the byte and every other cell reads as before. -/
def Obligations.PayloadByteIsStoredAtCount : Prop :=
  ∀ (s : State) (b : Byte) (now : Time),
    (s.life = .run → s.phase = .payload → s.operation (.byte b now) = some (.payByte b now)) ∧
      (s.cnt.toNat < s.cfg.maxPayload.toNat →
        ∃ m : Memory,
          exec (.payByte b now) s =
              .next { s with pbuf := m, xorAcc := s.xorAcc ^^^ b, cnt := BitVec.ofNat 17 (s.cnt.toNat + 1),
                             phase := if s.cnt.toNat + 1 = s.len.toNat then .check else s.phase } ∧
            m.cell s.cnt.toNat = some b ∧ (∀ a, a ≠ s.cnt.toNat → m.cell a = s.pbuf.cell a) ∧
            (s.pbuf.wf → m.wf))

/-- R115: one byte discarded, whatever its value; the last one ends the attempt. -/
def Obligations.SkipDiscardsOneByte : Prop :=
  ∀ (s : State) (b : Byte) (now : Time),
    (s.life = .run → s.phase = .skip → s.operation (.byte b now) = some (.skipByte b now)) ∧
      (1 ≤ s.cnt.toNat →
        exec (.skipByte b now) s =
          .next (if s.cnt.toNat = 1 then afterAttempt now [] s
            else { s with cnt := BitVec.ofNat 17 (s.cnt.toNat - 1) }))

/-- R117. -/
def Obligations.EndAttemptClearsFlushesThenStops : Prop :=
  ∀ (s : State) (now : Time),
    ∃ rate lastFlush life out,
      exec (.endAttempt now) s =
          .next { s with phase := .hunt, len := 0, cnt := 0, xorAcc := 0, lbuf := [], rate := rate,
                         lastFlush := lastFlush, life := life, out := out } ∧
        ((now.toNat : Int) - (s.lastFlush.toNat : Int) ≥ (s.cfg.rateWindowMs : Int) →
          rate = [] ∧ lastFlush = now ∧
            out = s.out ++ [.rateSnapshot now (s.rate.filter (fun x => x.2 != 0))] ++
              (if s.stopPending = true then [.stopped] else [])) ∧
        ((now.toNat : Int) - (s.lastFlush.toNat : Int) < (s.cfg.rateWindowMs : Int) →
          rate = s.rate ∧ lastFlush = s.lastFlush ∧ out = s.out ++ (if s.stopPending = true then [.stopped] else [])) ∧
        life = (if s.stopPending = true then .stopped else s.life)

/-- U21, U22, R26, R52 with log entries 10 and 11: the accesses the spec calls a fault of the model stop under names of
their own. -/
def Obligations.BufferBreachesFault : Prop :=
  ∀ (s : State) (b : Byte) (now : Time),
    (s.cfg.maxPayload.toNat ≤ s.cnt.toNat → exec (.payByte b now) s = .fault .bufWriteRange) ∧
      (s.cnt.toNat < s.len.toNat → exec (.chkByte b now) s = .fault .bufReadStale) ∧
      (s.len.toNat ≤ s.cnt.toNat → (∃ a, a < s.len.toNat ∧ s.pbuf.cell a = none) →
        exec (.chkByte b now) s = .fault .bufReadUnwritten) ∧
      (s.cnt.toNat = 0 → exec (.skipByte b now) s = .fault .skipUnderflow)

/-! ### The Frame Decoder and the Source Filter -/

/-- R130 to R133, R135, R137: the function `DECODE`, its four results in order, `n` being the sample count. The fields
are given by the arithmetic of R10 and R55 on the payload's bytes: little-endian numbers, byte `i` of the source in bits
`47 - 8 i` to `40 - 8 i`, a sample signed by its two cases, the checksum's bit `k` the parity of the payload's bits `k`. -/
def Obligations.DecodeReturnsFirstErrorOrRecord : Prop :=
  ∀ (p : List Byte) (c : Byte) (now : Time) (n : Nat), n = (p.getD 14 0).toNat + 256 * (p.getD 15 0).toNat →
    (∀ k : Fin 8, (xor8 p).getLsbD k = decide (p.countP (fun b => b.getLsbD k) % 2 = 1)) ∧
      (xor8 p ≠ c → decodeFrame p c now = .error (.checksumMismatch (xor8 p) c)) ∧
      (xor8 p = c → p.length ≤ 15 → decodeFrame p c now = .error .headerError) ∧
      (xor8 p = c → 16 ≤ p.length → p.length < 16 + n → decodeFrame p c now = .error .payloadLengthError) ∧
      (xor8 p = c → 16 + n ≤ p.length →
        ∃ r : Record,
          decodeFrame p c now = .ok r ∧ r.hostReceiveTimestamp = now ∧
            (∀ i, i < 6 → p[i]? = some (r.source.extractLsb' (40 - 8 * i) 8)) ∧
            r.deviceTimestamp.toNat =
              ((List.range 8).map (fun i => (p.getD (6 + i) 0).toNat * 2 ^ (8 * i))).sum ∧
            r.samples.length = n ∧
            ∀ k b, k < n → p[16 + k]? = some b →
              (b.toNat < 128 → r.samples[k]? = some (b.toNat : Int)) ∧
                (128 ≤ b.toNat → r.samples[k]? = some ((b.toNat : Int) - 256)))

/-- R150: membership in the allow-list, all 48 bits equal. -/
def Obligations.FilterIsMembership : Prop :=
  ∀ (cam : List CamEntry) (src : SourceId),
    filterSource cam src = true ↔ ∃ e ∈ cam, e.valid = true ∧ ∀ k : Fin 48, e.id.getLsbD k = src.getLsbD k

/-- The two functions performed on their own hand over their result and write nothing of the spec's; where the result
goes is the model's choice (log entry 3). -/
def Obligations.FunctionsReturnTheirResult : Prop :=
  ∀ (s : State) (p : List Byte) (c : Byte) (now : Time) (src : SourceId),
    exec (.decode p c now) s =
        .next { s with ret := some (match decodeFrame p c now with
                                    | .error e => .decodeFailed e
                                    | .ok r => .decoded r) } ∧
      ((∃ e ∈ s.cfg.allow, e.valid = true ∧ e.id = src) →
        exec (.filter src) s = .next { s with ret := some (.filtered true) }) ∧
      ((¬ ∃ e ∈ s.cfg.allow, e.valid = true ∧ e.id = src) →
        exec (.filter src) s = .next { s with ret := some (.filtered false) })

/-- R136, R151: the checksum byte of a stored payload `p`: one report and no record where `p` does not decode; counted
and emitted where it decodes and its source is on the allow-list; counted as rejected and reported where it is not. -/
def Obligations.ChecksumByteJudgesFrame : Prop :=
  ∀ (s : State) (b : Byte) (now : Time) (p : List Byte),
    (s.life = .run → s.phase = .check → s.operation (.byte b now) = some (.chkByte b now)) ∧
      (s.cnt.toNat = s.len.toNat → s.pbuf.gather 0 s.len.toNat = some p →
        (∀ e, decodeFrame p b now = .error e →
            exec (.chkByte b now) s =
              .next (afterAttempt now
                [.frameDropped (match e with
                  | .checksumMismatch x y => .checksumMismatch x y
                  | .headerError => .headerError
                  | .payloadLengthError => .payloadLengthError)] s)) ∧
          ∀ r, decodeFrame p b now = .ok r →
            ((∃ e ∈ s.cfg.allow, e.valid = true ∧ e.id = r.source) →
                exec (.chkByte b now) s =
                  .next (afterAttempt now [.frameAccepted, .record r] (meterInc r.source s))) ∧
              ((¬ ∃ e ∈ s.cfg.allow, e.valid = true ∧ e.id = r.source) →
                exec (.chkByte b now) s =
                  .next (afterAttempt now [.frameDropped (.sourceNotAllowed r.source)]
                    { s with rejCount := BitVec.ofNat 32 (min (s.rejCount.toNat + 1) (2 ^ 32 - 1)) })))

/-- 41_decoder R139 (the spec derives it from R131 and R135): what decodes has its checksum; flipping any one bit of its
payload, or of its checksum byte, makes it fail with `ChecksumMismatch`. -/
def Obligations.SingleBitFlipIsDetected : Prop :=
  ∀ (p : List Byte) (c : Byte) (now : Time) (r : Record), decodeFrame p c now = .ok r →
    xor8 p = c ∧
      (∀ (i : Nat) (k : Fin 8) (b : Byte), p[i]? = some b →
        decodeFrame (p.set i (b ^^^ BitVec.twoPow 8 k)) c now =
          .error (.checksumMismatch (c ^^^ BitVec.twoPow 8 k) c)) ∧
      ∀ k : Fin 8,
        decodeFrame p (c ^^^ BitVec.twoPow 8 k) now = .error (.checksumMismatch c (c ^^^ BitVec.twoPow 8 k))

/-- 41_decoder R138 (the spec derives it from R131): a corruption of payload and checksum bytes goes undetected
exactly when each bit position is flipped an even number of times. -/
def Obligations.UndetectedIffEvenFlipsPerBit : Prop :=
  ∀ (p q : List Byte) (c d : Byte), p.length = q.length → xor8 p = c →
    (xor8 q = d ↔
      ∀ k : Fin 8,
        (((p ++ [c]).zip (q ++ [d])).countP (fun x => x.1.getLsbD k != x.2.getLsbD k)) % 2 = 0)

/-! ### The Rate Meter -/

/-- R161, R167: one source's count goes up by one, saturating, and nothing else changes. -/
def Obligations.MeterIncrementsOneSource : Prop :=
  ∀ (s : State) (src : SourceId),
    ∃ t : List (SourceId × Count),
      exec (.meterInc src) s = .next { s with rate := t } ∧
        (rateOf t src).toNat = min ((rateOf s.rate src).toNat + 1) (2 ^ 32 - 1) ∧
        (∀ other, other ≠ src → rateOf t other = rateOf s.rate other) ∧ (RateWf s.rate → RateWf t)

/-- R162, R163, R164: the flush condition over the integers; the snapshot holds exactly the non-zero counts, and every
count is zero after it. `RateWf` is part of the invariant `StepKeepsInvariants` states. -/
def Obligations.FlushReportsNonZeroCountsAndClears : Prop :=
  ∀ (s : State) (now : Time),
    ((now.toNat : Int) - (s.lastFlush.toNat : Int) < (s.cfg.rateWindowMs : Int) →
        exec (.meterFlush now) s = .next s) ∧
      ((now.toNat : Int) - (s.lastFlush.toNat : Int) ≥ (s.cfg.rateWindowMs : Int) → RateWf s.rate →
        ∃ (t counts : List (SourceId × Count)),
          exec (.meterFlush now) s =
              .next { s with rate := t, lastFlush := now, out := s.out ++ [.rateSnapshot now counts] } ∧
            (∀ src, rateOf t src = 0) ∧
            (∀ src c, (src, c) ∈ counts ↔ rateOf s.rate src = c ∧ 1 ≤ c.toNat))

/-- 43_rate_meter R168 (the spec derives it from R161 to R163). First over the meter's procedures: `n` METER.INC of one
source, then a flush, and a flush with no METER.INC before it. Then over runs: what a snapshot says of a source is the
number of its records emitted since the snapshot before it, or, for the first snapshot, since a state in which its count
was zero; a source with no record is omitted. -/
def Obligations.WindowReportsExactCount : Prop :=
  (∀ (s : State) (src : SourceId) (n : Nat) (now later : Time),
    RateWf s.rate → rateOf s.rate src = 0 → 1 ≤ n → n < 2 ^ 32 →
      flushDue now s.lastFlush s.cfg.rateWindowMs = true → flushDue later now s.cfg.rateWindowMs = true →
        ∃ t u counts,
          repeatExec (.meterInc src) n s = .next t ∧ exec (.meterFlush now) t = .next u ∧
            u.out = s.out ++ [.rateSnapshot now counts] ∧ (∀ c, (src, c) ∈ counts ↔ c.toNat = n) ∧
            (∀ other c, other ≠ src → ((other, c) ∈ counts ↔ rateOf s.rate other = c ∧ c ≠ 0)) ∧
            exec (.meterFlush later) u = .next { u with lastFlush := later, out := u.out ++ [.rateSnapshot later []] }) ∧
    ∀ (es : List Event) (s t : State) (src : SourceId) (before window rest : List Output) (w : Time)
      (counts : List (SourceId × Count)),
      RateWf s.rate → (∀ e ∈ es, e.isStart = false) → runEvents es s = .next t →
        t.out = s.out ++ before ++ window ++ .rateSnapshot w counts :: rest →
          (∀ o ∈ window, o.isSnapshot = false) → window.countP (Output.isRecordOf src) < 2 ^ 32 →
            (before = [] ∧ rateOf s.rate src = 0 ∨ ∃ w0 counts0, before.getLast? = some (.rateSnapshot w0 counts0)) →
              ∀ c, (src, c) ∈ counts ↔ c.toNat = window.countP (Output.isRecordOf src) ∧ c ≠ 0

/-! ### Byte patterns delivered whole -/

/-- A frame row is delivered as its bytes at one clock reading (the model's choice, log entry 9): a frame delivered in
HUNT with its length within bounds is the payload stored and its checksum byte judged; cells above the payload read as
before. -/
def Obligations.DeliveredFrameIsStoredAndJudged : Prop :=
  ∀ (s : State) (p : List Byte) (c : Byte) (now : Time),
    s.life = .run → s.phase = .hunt → s.cfg.minPayload.toNat ≤ p.length → p.length ≤ s.cfg.maxPayload.toNat →
      ∃ m : Memory,
        exec (.frame p c now) s =
            exec (.chkByte c now)
              { s with phase := .check, len := BitVec.ofNat 16 p.length, cnt := BitVec.ofNat 17 p.length,
                       xorAcc := xor8 p, pbuf := m } ∧
          m.gather 0 p.length = some p ∧ (∀ a, p.length ≤ a → m.cell a = s.pbuf.cell a) ∧
          ∃ t, exec (.frame p c now) s = .next t ∧ t.phase = .hunt ∧ t.pbuf = m ∧ t.cfg = s.cfg ∧ t.input = s.input

/-- The round trip of 30_encoding R89 (which the spec derives from R100 to R151), with any clock readings before the
last: exactly one record, in the step of the last byte, and the scanner back in HUNT. -/
def Obligations.ConformingFrameYieldsOneRecord : Prop :=
  ∀ (s : State) (src : SourceId) (ts : Time) (v : List Int) (nows : List Time) (nowLast : Time),
    s.life = .run → s.phase = .hunt → v.all isI8 = true → s.cfg.minPayload.toNat ≤ 16 + v.length →
      16 + v.length ≤ s.cfg.maxPayload.toNat → (∃ e ∈ s.cfg.allow, e.valid = true ∧ e.id = src) →
        nows.length = v.length + 19 →
          ∃ t, runEvents (List.zipWith Event.byte (encodeFrame s.cfg.marker src ts v) (nows ++ [nowLast])) s = .next t ∧
            t.phase = .hunt ∧
            t.out = s.out ++ [.frameAccepted,
              .record { source := src, deviceTimestamp := ts, hostReceiveTimestamp := nowLast, samples := v }] ++
              attemptOutputs nowLast (meterInc src s) ∧
            t.rate = rateAfter nowLast (meterInc src s) ∧ t.rejCount = s.rejCount ∧ t.life = lifeAfter s

/-- Log entry 9, R71, R112: a payload delivered at the start of PAYLOAD fills the buffer and leaves the checksum byte
awaited. -/
def Obligations.DeliveredPayloadFillsBuffer : Prop :=
  ∀ (s : State) (src : SourceId) (ts : Time) (v : List Int) (now : Time),
    s.life = .run → s.phase = .payload → s.cnt = 0 → s.xorAcc = 0 → s.len.toNat = 16 + v.length →
      s.len.toNat ≤ s.cfg.maxPayload.toNat →
        ∃ m : Memory,
          exec (.payload src ts v now) s =
              .next { s with phase := .check, cnt := BitVec.ofNat 17 (16 + v.length),
                             xorAcc := xor8 (payloadBytes src ts v), pbuf := m } ∧
            m.gather 0 (16 + v.length) = some (payloadBytes src ts v) ∧
            ∀ a, 16 + v.length ≤ a → m.cell a = s.pbuf.cell a

/-- Log entry 9, R78, R101, R102, R104 to R106: a text line delivered in HUNT is one attempt that surfaces its bytes,
terminator included, as one `Desync`. -/
def Obligations.DeliveredTextLineIsSurfaced : Prop :=
  ∀ (s : State) (x : Byte) (ys : List Byte) (ended : Bool) (now : Time),
    s.life = .run → s.phase = .hunt → x ≠ s.cfg.marker → (0x0A : Byte) ∉ ys →
      (x ≠ 0x0A →
          exec (.textLine x ys ended now) s =
            .next (afterAttempt now [.desync (x :: (ys ++ (if ended then [0x0A] else []))) ended] s)) ∧
        (x = 0x0A → exec (.textLine x [] true now) s = .next (afterAttempt now [.desync [0x0A] true] s))

/-- 40_scanner R119 (a) and (b), R120 (the spec derives both), with log entry 9: a text line that ends before the
frame, by a terminator or a timeout, and then a conforming frame: one diagnostic line with all its bytes, then one record,
in that order. -/
def Obligations.FrameAfterEndedLineIsRecovered : Prop :=
  ∀ (s : State) (x : Byte) (ys : List Byte) (ended : Bool) (src : SourceId) (ts : Time) (v : List Int) (now : Time),
    s.life = .run → s.phase = .hunt → s.stopPending = false →
      flushDue now s.lastFlush s.cfg.rateWindowMs = false → x ≠ s.cfg.marker → (0x0A : Byte) ∉ ys →
        (x = 0x0A → ys = [] ∧ ended = true) → v.all isI8 = true → s.cfg.minPayload.toNat ≤ 16 + v.length →
          16 + v.length ≤ s.cfg.maxPayload.toNat → (∃ e ∈ s.cfg.allow, e.valid = true ∧ e.id = src) →
            ∃ t,
              execThen (.textLine x ys ended now) (.frame (payloadBytes src ts v) (xor8 (payloadBytes src ts v)) now) s =
                  .next t ∧
                t.out = s.out ++
                  [.desync (if x = 0x0A then [0x0A] else x :: (ys ++ (if ended then [0x0A] else []))) ended,
                    .frameAccepted,
                    .record { source := src, deviceTimestamp := ts, hostReceiveTimestamp := now, samples := v }] ∧
                t.phase = .hunt ∧ t.life = .run ∧ t.rate = (meterInc src s).rate

/-- 40_scanner R119 and 70_reset R245 (the spec derives both from R104), with log entry 9: a frame delivered while a
line is open, none of its bytes `0x0A`, is swallowed into the line. -/
def Obligations.OpenLineSwallowsFrame : Prop :=
  ∀ (s : State) (p : List Byte) (c : Byte) (now : Time),
    s.life = .run → s.phase = .line → (0x0A : Byte) ∉ frameBytes s.cfg.marker p c →
      exec (.frame p c now) s = .next { s with lbuf := s.lbuf ++ frameBytes s.cfg.marker p c }

/-- R109, R115 with log entry 9: a frame whose declared length is honest but out of bounds is reported and skipped
whole: the scanner is back in HUNT right after its checksum byte. -/
def Obligations.HonestOutOfBoundsFrameIsSkippedWhole : Prop :=
  ∀ (s : State) (p : List Byte) (c : Byte) (now : Time),
    s.life = .run → s.phase = .hunt → p.length < 65536 →
      p.length < s.cfg.minPayload.toNat ∨ s.cfg.maxPayload.toNat < p.length →
        exec (.frame p c now) s =
          .next (afterAttempt now [.frameDropped (.lengthOutOfBounds (BitVec.ofNat 16 p.length))] s)

/-- R115, R244: in SKIP bytes are discarded unexamined until `cnt` are gone. -/
def Obligations.SkipDiscardsUnexaminedBytes : Prop :=
  ∀ (s : State) (bs : List Byte) (now : Time), s.life = .run → s.phase = .skip →
    (bs.length < s.cnt.toNat →
        runEvents (bytesAt now bs) s = .next { s with cnt := BitVec.ofNat 17 (s.cnt.toNat - bs.length) }) ∧
      (1 ≤ bs.length → bs.length = s.cnt.toNat → runEvents (bytesAt now bs) s = .next (afterAttempt now [] s))

/-! ### Invariants and whole-machine rules -/

/-- R37, R241: power-on; that the values log entry 5 names meet the invariant is the model's. -/
def Obligations.PowerOnIsOffAndUnwritten : Prop :=
  State.reset.life = .off ∧ (∀ a, State.reset.pbuf.cell a = none) ∧ Inv State.reset

/-- 10_state R38 (the spec derives it), with the stores' canonical form (log entries 13, 17): every step keeps the
invariants. -/
def Obligations.StepKeepsInvariants : Prop :=
  ∀ s t : State, Inv s → step s = .next t → Inv t

/-- From a state that meets the invariants of 10_state R38, a step with an event presented never stops; it consumes the
event and leaves the model's other fields alone (log entries 2, 3, 4). -/
def Obligations.StepNeverStopsUnderInvariants : Prop :=
  ∀ (s : State) (e : Event) (rest : List Event), Inv s → s.input = e :: rest →
    ∃ t, step s = .next t ∧ t.input = rest ∧ t.ret = s.ret ∧ t.impl = s.impl

/-- R62, R63: a step only adds outputs, and in the fixed order. -/
def Obligations.StepOutputsKeepTheFixedOrder : Prop :=
  ∀ s t : State, step s = .next t →
    ∃ own flush stop : List Output,
      t.out = s.out ++ own ++ flush ++ stop ∧
        (own = [] ∨ own = [.noData] ∨ (∃ x e, own = [.desync x e]) ∨ (∃ r, own = [.frameDropped r]) ∨
          (∃ r, own = [.frameAccepted, .record r]) ∨ own = [.fatal .byteSourceFailure]) ∧
        (flush = [] ∨ ∃ w c, flush = [.rateSnapshot w c]) ∧ (stop = [] ∨ stop = [.stopped])

/-- 42_filter R153 (the spec derives it from R136 and R80): a step emits a record exactly when it is a CHK.BYTE whose
frame decodes to it and whose source passes the filter. -/
def Obligations.RecordEmittedIffDecodedAndAllowed : Prop :=
  ∀ s t : State, step s = .next t →
    ∃ new, t.out = s.out ++ new ∧
      ∀ r : Record, Output.record r ∈ new ↔
        ∃ (b : Byte) (now : Time) (rest : List Event) (p : List Byte),
          s.input = .byte b now :: rest ∧ s.life = .run ∧ s.phase = .check ∧ memRead s 0 s.len.toNat = .ok p ∧
            decodeFrame p b now = .ok r ∧ ∃ e ∈ s.cfg.allow, e.valid = true ∧ e.id = r.source

/-- R162, R163, R165: a step emits a snapshot only at an attempt end whose window has elapsed; it carries that step's
clock, no zero count, and leaves every count zero. -/
def Obligations.SnapshotOnlyAtDueAttemptEnd : Prop :=
  ∀ s t : State, step s = .next t →
    ∃ new, t.out = s.out ++ new ∧
      ∀ w counts, Output.rateSnapshot w counts ∈ new →
        (∃ e rest, s.input = e :: rest ∧ w = e.now) ∧ s.life = .run ∧ t.phase = .hunt ∧ t.lastFlush = w ∧ t.rate = [] ∧
          s.lastFlush.toNat + s.cfg.rateWindowMs ≤ w.toNat ∧ ∀ x ∈ counts, x.2 ≠ 0

/-- R21, R217: how `life` can change in one step. -/
def Obligations.LifeChangesOnlyAsListed : Prop :=
  ∀ (s t : State) (e : Event) (rest : List Event), s.input = e :: rest → step s = .next t → t.life ≠ s.life →
    (∃ cfg now, e = .start cfg now ∧ t.life = .run) ∨
      (s.life = .run ∧
        ((∃ now, e = .fail now ∧ t.life = .failed) ∨
          (∃ now, e = .stopReq now ∧ s.phase = .hunt ∧ t.life = .stopped) ∨
          (s.stopPending = true ∧ t.phase = .hunt ∧ t.life = .stopped)))

/-- R182, R180: STOPPED and FAILED are final for every event but START: only the event is consumed. -/
def Obligations.EndedSessionIsAbsorbing : Prop :=
  ∀ (s : State) (e : Event) (rest : List Event), SessionOver s → s.input = e :: rest → e.isStart = false →
    step s = .next { s with input := rest }

/-- R65, R152: only a START changes the configuration. -/
def Obligations.ConfigurationIsConstantInSession : Prop :=
  ∀ (s t : State) (e : Event) (rest : List Event), s.input = e :: rest → step s = .next t →
    e.isStart = false → t.cfg = s.cfg

/-- 30_encoding R84 (the spec derives it from R82): the scanner enters LEN0 only from HUNT at a byte equal to the
marker. -/
def Obligations.MarkerRecognisedOnlyInHunt : Prop :=
  ∀ s t : State, step s = .next t → t.phase = .len0 → s.phase ≠ .len0 →
    ∃ now rest, s.input = .byte s.cfg.marker now :: rest ∧ s.life = .run ∧ s.phase = .hunt

/-- 40_scanner R121, 44_system R178 (the spec derives both): a TIMEOUT in a session returns the scanner to HUNT from
every phase, and a pending stop is observed there. -/
def Obligations.TimeoutReturnsToHunt : Prop :=
  ∀ (s : State) (now : Time) (rest : List Event), s.life = .run → s.input = .timeout now :: rest →
    ∃ t, step s = .next t ∧ t.phase = .hunt ∧ t.len = 0 ∧ t.cnt = 0 ∧ t.xorAcc = 0 ∧ t.lbuf = [] ∧
      (s.stopPending = true → t.life = .stopped ∧ t.out.getLast? = some .stopped) ∧
      (s.stopPending = false → t.life = .run)

/-- R203: what reports a truncated frame. -/
def Obligations.TruncationReportedOnlyByTimeoutInFrame : Prop :=
  ∀ s t : State, step s = .next t →
    ∃ new, t.out = s.out ++ new ∧
      (Output.frameDropped .truncatedFrame ∈ new ↔
        s.life = .run ∧ (∃ now rest, s.input = .timeout now :: rest) ∧
          (s.phase = .len0 ∨ s.phase = .len1 ∨ s.phase = .payload ∨ s.phase = .check))

/-- R160, R161, R162, R175: the counts and the time of the last flush change only by a START, a flush or an accepted
record; `rate` and `last_flush` belong to the meter. -/
def Obligations.MeterStateChangesOnlyByItsOperations : Prop :=
  ∀ s t : State, step s = .next t → t.rate ≠ s.rate ∨ t.lastFlush ≠ s.lastFlush →
    (∃ cfg now rest, s.input = .start cfg now :: rest ∧ t.rate = [] ∧ t.lastFlush = now) ∨
      ∃ new, t.out = s.out ++ new ∧
        ((∃ w counts, Output.rateSnapshot w counts ∈ new ∧ t.rate = [] ∧ t.lastFlush = w) ∨
          ∃ r, Output.record r ∈ new ∧ t.rate = (meterInc r.source s).rate ∧ t.lastFlush = s.lastFlush)

/-- R26, R52: only PAY.BYTE and START write the payload buffer; a PAY.BYTE changes one cell. -/
def Obligations.BufferWrittenOnlyByPayloadByteAndStart : Prop :=
  ∀ (s t : State) (a : Nat), step s = .next t → t.pbuf.cell a ≠ s.pbuf.cell a →
    (∃ cfg now rest, s.input = .start cfg now :: rest ∧ t.pbuf = []) ∨
      ∃ b now rest, s.input = .byte b now :: rest ∧ s.life = .run ∧ s.phase = .payload ∧ a = s.cnt.toNat ∧
        t.pbuf.cell a = some b

/-- R32, R151: between STARTs the reject count changes only with a `SourceNotAllowed` report, by one, saturating. -/
def Obligations.RejectCountFollowsReports : Prop :=
  ∀ (s t : State) (e : Event) (rest : List Event), s.input = e :: rest → e.isStart = false → step s = .next t →
    ∃ new, t.out = s.out ++ new ∧
      ((∃ src, Output.frameDropped (.sourceNotAllowed src) ∈ new) →
        t.rejCount.toNat = min (s.rejCount.toNat + 1) (2 ^ 32 - 1)) ∧
      ((¬ ∃ src, Output.frameDropped (.sourceNotAllowed src) ∈ new) → t.rejCount = s.rejCount)

/-- From R29, R162 and the host's duty of R218: with a host clock that never decreases, `last_flush` never runs ahead
of it. -/
def Obligations.LastFlushNeverAheadOfClock : Prop :=
  ∀ (es : List Event) (s t : State) (t0 : Time), s.lastFlush.toNat ≤ t0.toNat → clockMonotone t0 es = true →
    runEvents es s = .next t → t.lastFlush.toNat ≤ ((es.getLast?.map Event.now).getD t0).toNat

/-- R122, R220, R221: the read outstanding in each phase, with the configured timeout, and a read's result as events,
whether it asks for a number of bytes or for a line end; that its events share one clock reading, and that a read up to a
line end has all it asked for when its last byte is the terminator, is the model's (log entry 21). -/
def Obligations.OutstandingReadFollowsPhase : Prop :=
  (∀ s : State, s.life = .run →
      ∃ q : ReadRequest, s.outstandingRead = some q ∧ q.timeoutMs = s.cfg.readTimeoutMs ∧
        (s.phase = .hunt ∨ s.phase = .check → q.size = .bytes 1) ∧ (s.phase = .line → q.size = .lineEnd) ∧
        (s.phase = .len0 ∨ s.phase = .len1 → q.size = .bytes 2) ∧ (s.phase = .payload → q.size = .bytes s.len.toNat) ∧
        (s.phase = .skip → q.size = .bytes (s.len.toNat + 1))) ∧
    ∀ (n : Nat) (got : List Byte) (now : Time),
      (n ≤ got.length → readEvents (.bytes n) got now = bytesAt now got) ∧
        (got.length < n → readEvents (.bytes n) got now = bytesAt now got ++ [.timeout now]) ∧
        (got.getLast? = some 0x0A → readEvents .lineEnd got now = bytesAt now got) ∧
        (got.getLast? ≠ some 0x0A → readEvents .lineEnd got now = bytesAt now got ++ [.timeout now])

/-- R80, R81, R200: the channel each output goes out on, the error it reports, the errors' codes (suggestions, log entry
7), and that whatever a step reports is reported by an operation R200's table names for it. -/
def Obligations.OutputsHaveChannelsAndCodes : Prop :=
  (∀ o : Output,
      o.channel =
        match o with
        | .record _ => .record
        | .rateSnapshot _ _ => .rate
        | .noData | .desync _ _ | .frameDropped _ | .frameAccepted | .stopped | .fatal _ => .diag) ∧
    (∀ o : Output,
      o.errorName.map ErrorName.code =
        match o with
        | .noData => some 0
        | .desync _ _ => some 1
        | .frameDropped .truncatedFrame => some 2
        | .frameDropped (.lengthOutOfBounds _) => some 3
        | .frameDropped (.checksumMismatch _ _) => some 4
        | .frameDropped .headerError => some 5
        | .frameDropped .payloadLengthError => some 6
        | .frameDropped (.sourceNotAllowed _) => some 7
        | .fatal .byteSourceFailure => some 8
        | .frameAccepted | .stopped | .record _ | .rateSnapshot _ _ => none) ∧
    (ErrorName.transportTimeout.code = 0 ∧ ErrorName.framingDesync.code = 1 ∧ ErrorName.truncatedFrame.code = 2 ∧
      ErrorName.lengthOutOfBounds.code = 3 ∧ ErrorName.checksumMismatch.code = 4 ∧ ErrorName.headerError.code = 5 ∧
      ErrorName.payloadLengthError.code = 6 ∧ ErrorName.sourceNotAllowed.code = 7 ∧
      ErrorName.byteSourceFailure.code = 8) ∧
    ∀ s t : State, step s = .next t →
      ∃ new, t.out = s.out ++ new ∧
        ∀ o ∈ new, ∀ n, o.errorName = some n →
          ∃ e rest, s.input = e :: rest ∧ raisedBy n (operationOf s e) = true
end

