-- ==== Sys2Proof/Laws/State.lean ====
section
/-! SUPPORT. One lemma per field per update. -/

namespace Sys2Proof.Machine

/-! `emit` -/
@[simp] theorem emit_life (s : State) (os : List Output) : (s.emit os).life = s.life := rfl
@[simp] theorem emit_phase (s : State) (os : List Output) : (s.emit os).phase = s.phase := rfl
@[simp] theorem emit_len (s : State) (os : List Output) : (s.emit os).len = s.len := rfl
@[simp] theorem emit_cnt (s : State) (os : List Output) : (s.emit os).cnt = s.cnt := rfl
@[simp] theorem emit_xorAcc (s : State) (os : List Output) : (s.emit os).xorAcc = s.xorAcc := rfl
@[simp] theorem emit_pbuf (s : State) (os : List Output) : (s.emit os).pbuf = s.pbuf := rfl
@[simp] theorem emit_lbuf (s : State) (os : List Output) : (s.emit os).lbuf = s.lbuf := rfl
@[simp] theorem emit_rate (s : State) (os : List Output) : (s.emit os).rate = s.rate := rfl
@[simp] theorem emit_lastFlush (s : State) (os : List Output) : (s.emit os).lastFlush = s.lastFlush := rfl
@[simp] theorem emit_stopPending (s : State) (os : List Output) : (s.emit os).stopPending = s.stopPending := rfl
@[simp] theorem emit_rejCount (s : State) (os : List Output) : (s.emit os).rejCount = s.rejCount := rfl
@[simp] theorem emit_cfg (s : State) (os : List Output) : (s.emit os).cfg = s.cfg := rfl
@[simp] theorem emit_impl (s : State) (os : List Output) : (s.emit os).impl = s.impl := rfl
@[simp] theorem emit_input (s : State) (os : List Output) : (s.emit os).input = s.input := rfl
@[simp] theorem emit_out (s : State) (os : List Output) : (s.emit os).out = s.out ++ os := rfl
@[simp] theorem emit_ret (s : State) (os : List Output) : (s.emit os).ret = s.ret := rfl

/-! The clearing of a frame -/
@[simp] theorem clearFrame_life (s : State) : (s.clearFrame).life = s.life := rfl
@[simp] theorem clearFrame_phase (s : State) : (s.clearFrame).phase = .hunt := rfl
@[simp] theorem clearFrame_len (s : State) : (s.clearFrame).len = 0 := rfl
@[simp] theorem clearFrame_cnt (s : State) : (s.clearFrame).cnt = 0 := rfl
@[simp] theorem clearFrame_xorAcc (s : State) : (s.clearFrame).xorAcc = 0 := rfl
@[simp] theorem clearFrame_pbuf (s : State) : (s.clearFrame).pbuf = s.pbuf := rfl
@[simp] theorem clearFrame_lbuf (s : State) : (s.clearFrame).lbuf = [] := rfl
@[simp] theorem clearFrame_rate (s : State) : (s.clearFrame).rate = s.rate := rfl
@[simp] theorem clearFrame_lastFlush (s : State) : (s.clearFrame).lastFlush = s.lastFlush := rfl
@[simp] theorem clearFrame_stopPending (s : State) : (s.clearFrame).stopPending = s.stopPending := rfl
@[simp] theorem clearFrame_rejCount (s : State) : (s.clearFrame).rejCount = s.rejCount := rfl
@[simp] theorem clearFrame_cfg (s : State) : (s.clearFrame).cfg = s.cfg := rfl
@[simp] theorem clearFrame_impl (s : State) : (s.clearFrame).impl = s.impl := rfl
@[simp] theorem clearFrame_input (s : State) : (s.clearFrame).input = s.input := rfl
@[simp] theorem clearFrame_out (s : State) : (s.clearFrame).out = s.out := rfl
@[simp] theorem clearFrame_ret (s : State) : (s.clearFrame).ret = s.ret := rfl

/-! `METER.INC` -/
@[simp] theorem meterInc_life (src : SourceId) (s : State) : (meterInc src s).life = s.life := rfl
@[simp] theorem meterInc_phase (src : SourceId) (s : State) : (meterInc src s).phase = s.phase := rfl
@[simp] theorem meterInc_len (src : SourceId) (s : State) : (meterInc src s).len = s.len := rfl
@[simp] theorem meterInc_cnt (src : SourceId) (s : State) : (meterInc src s).cnt = s.cnt := rfl
@[simp] theorem meterInc_xorAcc (src : SourceId) (s : State) : (meterInc src s).xorAcc = s.xorAcc := rfl
@[simp] theorem meterInc_pbuf (src : SourceId) (s : State) : (meterInc src s).pbuf = s.pbuf := rfl
@[simp] theorem meterInc_lbuf (src : SourceId) (s : State) : (meterInc src s).lbuf = s.lbuf := rfl
@[simp] theorem meterInc_rate (src : SourceId) (s : State) : (meterInc src s).rate = storeBy BitVec.toNat src (satInc (rateOf s.rate src)) s.rate := rfl
@[simp] theorem meterInc_lastFlush (src : SourceId) (s : State) : (meterInc src s).lastFlush = s.lastFlush := rfl
@[simp] theorem meterInc_stopPending (src : SourceId) (s : State) : (meterInc src s).stopPending = s.stopPending := rfl
@[simp] theorem meterInc_rejCount (src : SourceId) (s : State) : (meterInc src s).rejCount = s.rejCount := rfl
@[simp] theorem meterInc_cfg (src : SourceId) (s : State) : (meterInc src s).cfg = s.cfg := rfl
@[simp] theorem meterInc_impl (src : SourceId) (s : State) : (meterInc src s).impl = s.impl := rfl
@[simp] theorem meterInc_input (src : SourceId) (s : State) : (meterInc src s).input = s.input := rfl
@[simp] theorem meterInc_out (src : SourceId) (s : State) : (meterInc src s).out = s.out := rfl
@[simp] theorem meterInc_ret (src : SourceId) (s : State) : (meterInc src s).ret = s.ret := rfl

theorem emit_emit (s : State) (os ps : List Output) : (s.emit os).emit ps = s.emit (os ++ ps) := by
  simp [State.emit]

end Sys2Proof.Machine
end

