-- ==== Sys2Proof/Laws/Store.lean ====
section
/-! SUPPORT. Laws of the sorted stores, of the payload buffer and of the rate table: what a write makes a read give, and
that every write keeps the canonical form. -/

namespace Sys2Proof.Machine

variable {κ β : Type} {rank : κ → Nat}

theorem lookupBy_storeBy_same (k : κ) (v : β) (m : List (κ × β)) : lookupBy rank k (storeBy rank k v m) = some v := by
  induction m with
  | nil => simp [storeBy, lookupBy]
  | cons e m ih =>
    obtain ⟨j, w⟩ := e
    simp only [storeBy]
    split
    · simp [lookupBy]
    · split
      · simp [lookupBy]
      · next h => rw [lookupBy, if_neg (Ne.symm h), ih]

theorem mem_storeBy {k : κ} {v : β} {m : List (κ × β)} {e : κ × β} (h : e ∈ storeBy rank k v m) :
    e = (k, v) ∨ e ∈ m := by
  induction m with
  | nil => simpa [storeBy] using h
  | cons f m ih =>
    obtain ⟨j, w⟩ := f
    simp only [storeBy] at h
    split at h
    · simpa using h
    · split at h
      · rcases List.mem_cons.1 h with h | h
        · exact .inl h
        · exact .inr (List.mem_cons_of_mem _ h)
      · rcases List.mem_cons.1 h with h | h
        · exact .inr (h ▸ List.mem_cons_self ..)
        · exact (ih h).imp id (List.mem_cons_of_mem _)

/-- A write keeps the canonical form. -/
theorem SortedBy.storeBy {k : κ} {v : β} {m : List (κ × β)} (h : SortedBy rank m) :
    SortedBy rank (Machine.storeBy rank k v m) := by
  induction m with
  | nil => simp [Machine.storeBy]
  | cons f m ih =>
    obtain ⟨j, w⟩ := f
    have hj := (List.pairwise_cons.1 h).1
    have hm := (List.pairwise_cons.1 h).2
    simp only [Machine.storeBy]
    split
    · next hk =>
      refine List.pairwise_cons.2 ⟨fun e he => ?_, h⟩
      rcases List.mem_cons.1 he with rfl | he
      · exact hk
      · exact Nat.lt_trans hk (hj e he)
    · split
      · next hk => exact List.pairwise_cons.2 ⟨fun e he => by simpa [hk] using hj e he, hm⟩
      · refine List.pairwise_cons.2 ⟨fun e he => ?_, ih hm⟩
        rcases mem_storeBy he with rfl | he
        · show rank j < rank k
          omega
        · exact hj e he

theorem lookupBy_none_of_lt {k : κ} {m : List (κ × β)} (h : ∀ e ∈ m, rank k < rank e.1) : lookupBy rank k m = none := by
  induction m with
  | nil => rfl
  | cons f m ih =>
    obtain ⟨j, w⟩ := f
    have hj : rank k < rank j := h (j, w) (List.mem_cons_self ..)
    rw [lookupBy, if_neg (by omega), ih fun e he => h e (List.mem_cons_of_mem _ he)]

/-- A write leaves every other place alone. -/
theorem lookupBy_storeBy_other {k l : κ} {v : β} {m : List (κ × β)} (h : rank l ≠ rank k) :
    lookupBy rank l (storeBy rank k v m) = lookupBy rank l m := by
  induction m with
  | nil => simp [storeBy, lookupBy, Ne.symm h]
  | cons f m ih =>
    obtain ⟨j, w⟩ := f
    simp only [storeBy]
    split
    · rw [lookupBy, if_neg (Ne.symm h)]
    · split
      · next hk => rw [lookupBy, if_neg (Ne.symm h), lookupBy, if_neg (by omega)]
      · simp only [lookupBy, ih]

theorem mem_of_lookupBy {k : κ} {v : β} {m : List (κ × β)} (h : lookupBy rank k m = some v) :
    ∃ j, (j, v) ∈ m ∧ rank j = rank k := by
  induction m with
  | nil => simp [lookupBy] at h
  | cons f m ih =>
    obtain ⟨j, w⟩ := f
    rw [lookupBy] at h
    split at h
    · next hj => exact ⟨j, by simp_all, hj⟩
    · obtain ⟨i, hi, he⟩ := ih h
      exact ⟨i, List.mem_cons_of_mem _ hi, he⟩

theorem lookupBy_of_mem {k : κ} {v : β} {m : List (κ × β)} (hs : SortedBy rank m) (h : (k, v) ∈ m) :
    lookupBy rank k m = some v := by
  induction m with
  | nil => simp at h
  | cons f m ih =>
    obtain ⟨j, w⟩ := f
    have hp := List.pairwise_cons.1 hs
    rcases List.mem_cons.1 h with h | h
    · simp only [Prod.mk.injEq] at h
      simp [lookupBy, h.1, h.2]
    · have := hp.1 _ h
      simp only at this
      rw [lookupBy, if_neg (by omega), ih hp.2 h]

/-! ### The payload buffer -/

@[simp] theorem Memory.cell_set_same (m : Memory) (a : Nat) (v : Byte) : (m.set a v).cell a = some v :=
  lookupBy_storeBy_same a v m

theorem Memory.cell_set_other {m : Memory} {a b : Nat} {v : Byte} (h : b ≠ a) : (m.set a v).cell b = m.cell b :=
  lookupBy_storeBy_other (rank := fun a : Nat => a) h

theorem Memory.wf_nil : Memory.wf [] := List.Pairwise.nil

theorem Memory.wf.set {m : Memory} (h : m.wf) (a : Nat) (v : Byte) : (Memory.set m a v).wf := SortedBy.storeBy h

theorem Memory.mem_set {m : Memory} {a : Nat} {v : Byte} {c : Host.Cell} (h : c ∈ Memory.set m a v) :
    c = (a, v) ∨ c ∈ m := mem_storeBy h

/-- What the cells below a written one read as is unchanged. -/
theorem Memory.gather_set_above {m : Memory} {a b n : Nat} {v : Byte} (h : a + n ≤ b) :
    (Memory.set m b v).gather a n = m.gather a n := by
  induction n generalizing a with
  | zero => rfl
  | succ n ih =>
    have hb : a ≠ b := by omega
    simp only [Memory.gather, Memory.cell_set_other hb, ih (a := a + 1) (by omega)]

theorem Memory.gather_succ {m : Memory} {a n : Nat} :
    m.gather a (n + 1) = (m.gather a n).bind fun p => (m.cell (a + n)).map fun v => p ++ [v] := by
  induction n generalizing a with
  | zero => cases h : m.cell a <;> simp [Memory.gather, h]
  | succ n ih =>
    rw [Memory.gather]
    cases h : m.cell a with
    | none => simp [Memory.gather, h]
    | some v =>
      have hs : m.gather a (n + 1) = (m.gather (a + 1) n).map (v :: ·) := by
        cases g : m.gather (a + 1) n <;> simp [Memory.gather, h, g]
      simp only [ih (a := a + 1), hs]
      have e : a + 1 + n = a + (n + 1) := by omega
      cases m.gather (a + 1) n <;> simp [e]
      cases m.cell (a + (n + 1)) <;> simp

/-- A byte stored just above a run of cells extends what they read as by that byte. -/
theorem Memory.gather_set_next {m : Memory} {a n : Nat} {v : Byte} {p : List Byte} (h : m.gather a n = some p) :
    (Memory.set m (a + n) v).gather a (n + 1) = some (p ++ [v]) := by
  rw [Memory.gather_succ, Memory.gather_set_above (Nat.le_refl _), h]
  simp

theorem Memory.length_gather {m : Memory} {a n : Nat} {p : List Byte} (h : m.gather a n = some p) : p.length = n := by
  induction n generalizing a p with
  | zero => simp [Memory.gather] at h; simp [h]
  | succ n ih =>
    rw [Memory.gather] at h
    split at h
    · simp at h
    · split at h
      · simp at h
      · next hs => simp only [Option.some.injEq] at h; simp [← h, ih hs]

/-- All `MemWrite` can do (20_memory R52). -/
theorem memWrite_ok {s : State} {a : Nat} {v : Byte} {m : Memory} (h : memWrite s a v = .ok m) :
    a < s.cfg.maxPayload.toNat ∧ m = s.pbuf.set a v := by
  simp only [memWrite] at h
  split at h
  · exact ⟨‹_›, by cases h; rfl⟩
  · cases h

theorem memWrite_in_range {s : State} {a : Nat} (v : Byte) (h : a < s.cfg.maxPayload.toNat) :
    memWrite s a v = .ok (s.pbuf.set a v) := by rw [memWrite, if_pos h]

/-- All `MemRead` can do (20_memory R52). -/
theorem memRead_ok {s : State} {a n : Nat} {p : List Byte} (h : memRead s a n = .ok p) :
    a + n ≤ s.len.toNat ∧ a + n ≤ s.cnt.toNat ∧ s.pbuf.gather a n = some p := by
  simp only [memRead] at h
  split at h
  · cases h
  · split at h
    · cases h
    · split at h
      · cases h
      · next hg => cases h; exact ⟨by omega, by omega, hg⟩

theorem memRead_written {s : State} {a n : Nat} {p : List Byte} (hl : a + n ≤ s.len.toNat) (hc : a + n ≤ s.cnt.toNat)
    (hg : s.pbuf.gather a n = some p) : memRead s a n = .ok p := by
  rw [memRead, if_neg (by omega), if_neg (by omega), hg]

/-! ### The rate table -/

theorem satInc_ne_zero (c : Count) : satInc c ≠ 0 := by
  have := c.isLt
  simp only [satInc]
  split
  · intro h
    have := congrArg BitVec.toNat h
    simp [BitVec.toNat_add] at this
    omega
  · intro h
    simp [h] at *

theorem satInc_toNat (c : Count) : (satInc c).toNat = min (c.toNat + 1) (2 ^ 32 - 1) := by
  have := c.isLt
  simp only [satInc]
  split
  · next h =>
    rw [Nat.min_eq_left h, BitVec.toNat_add, show (1 : Count).toNat = 1 from rfl]
    omega
  · omega

theorem rateOf_meterInc_same (src : SourceId) (s : State) :
    rateOf (meterInc src s).rate src = satInc (rateOf s.rate src) := by
  rw [rateOf, meterInc, lookupBy_storeBy_same]
  rfl

theorem rateOf_meterInc_other {src other : SourceId} (s : State) (h : other ≠ src) :
    rateOf (meterInc src s).rate other = rateOf s.rate other := by
  rw [rateOf, meterInc, lookupBy_storeBy_other (fun e => h (BitVec.eq_of_toNat_eq e))]
  rfl

theorem RateWf.meterInc {src : SourceId} {s : State} (h : RateWf s.rate) : RateWf (Machine.meterInc src s).rate := by
  refine ⟨h.1.storeBy, fun e he => ?_⟩
  rcases mem_storeBy he with rfl | he
  · exact satInc_ne_zero _
  · exact h.2 e he

theorem RateWf.nil : RateWf [] := ⟨List.Pairwise.nil, by simp⟩

theorem snapshot_of_wf {t : List (SourceId × Count)} (h : RateWf t) : snapshot t = t := by
  rw [snapshot, List.filter_eq_self]
  intro e he
  simpa using h.2 e he

/-- In its canonical form the table lists exactly the non-zero counts (10_state R28). -/
theorem RateWf.mem_iff {t : List (SourceId × Count)} (h : RateWf t) (src : SourceId) (c : Count) :
    (src, c) ∈ t ↔ rateOf t src = c ∧ c ≠ 0 := by
  constructor
  · intro hm
    exact ⟨by rw [rateOf, lookupBy_of_mem h.1 hm]; rfl, h.2 _ hm⟩
  · rintro ⟨h1, h2⟩
    simp only [rateOf] at h1
    cases hl : lookupBy BitVec.toNat src t with
    | none => simp [hl] at h1; exact absurd h1.symm h2
    | some v =>
      simp only [hl, Option.getD_some] at h1
      obtain ⟨j, hj, he⟩ := mem_of_lookupBy hl
      have := BitVec.eq_of_toNat_eq he
      subst this; subst h1; exact hj

end Sys2Proof.Machine
end

