-- ==== Sys2Proof/Laws/Attempt.lean ====
section
/-! SUPPORT. What the end of an attempt does, field by field (40_scanner R117), and that it keeps R38. -/

namespace Sys2Proof.Machine

/-- The end of an attempt, all fields at once. -/
theorem endAttempt_eq (now : Time) (s : State) :
    endAttempt now s =
      { s with
        phase := .hunt, len := 0, cnt := 0, xorAcc := 0, lbuf := [], rate := rateAfter now s,
        lastFlush := lastFlushAfter now s, life := lifeAfter s, out := s.out ++ attemptOutputs now s } := by
  simp only [endAttempt, observeStop, meterFlush, State.clearFrame, rateAfter, lastFlushAfter, lifeAfter,
    attemptOutputs, flushOutputs, stopOutputs]
  by_cases hf : flushDue now s.lastFlush s.cfg.rateWindowMs = true <;> by_cases hs : s.stopPending = true <;>
    simp [hf, hs]

@[simp] theorem endAttempt_phase (now : Time) (s : State) : (endAttempt now s).phase = .hunt := by rw [endAttempt_eq]
@[simp] theorem endAttempt_len (now : Time) (s : State) : (endAttempt now s).len = 0 := by rw [endAttempt_eq]
@[simp] theorem endAttempt_cnt (now : Time) (s : State) : (endAttempt now s).cnt = 0 := by rw [endAttempt_eq]
@[simp] theorem endAttempt_xorAcc (now : Time) (s : State) : (endAttempt now s).xorAcc = 0 := by rw [endAttempt_eq]
@[simp] theorem endAttempt_lbuf (now : Time) (s : State) : (endAttempt now s).lbuf = [] := by rw [endAttempt_eq]
@[simp] theorem endAttempt_rate (now : Time) (s : State) : (endAttempt now s).rate = rateAfter now s := by
  rw [endAttempt_eq]
@[simp] theorem endAttempt_lastFlush (now : Time) (s : State) : (endAttempt now s).lastFlush = lastFlushAfter now s := by
  rw [endAttempt_eq]
@[simp] theorem endAttempt_life (now : Time) (s : State) : (endAttempt now s).life = lifeAfter s := by rw [endAttempt_eq]
@[simp] theorem endAttempt_out (now : Time) (s : State) :
    (endAttempt now s).out = s.out ++ attemptOutputs now s := by rw [endAttempt_eq]
@[simp] theorem endAttempt_pbuf (now : Time) (s : State) : (endAttempt now s).pbuf = s.pbuf := by rw [endAttempt_eq]
@[simp] theorem endAttempt_stopPending (now : Time) (s : State) :
    (endAttempt now s).stopPending = s.stopPending := by rw [endAttempt_eq]
@[simp] theorem endAttempt_rejCount (now : Time) (s : State) : (endAttempt now s).rejCount = s.rejCount := by
  rw [endAttempt_eq]
@[simp] theorem endAttempt_cfg (now : Time) (s : State) : (endAttempt now s).cfg = s.cfg := by rw [endAttempt_eq]
@[simp] theorem endAttempt_impl (now : Time) (s : State) : (endAttempt now s).impl = s.impl := by rw [endAttempt_eq]
@[simp] theorem endAttempt_input (now : Time) (s : State) : (endAttempt now s).input = s.input := by rw [endAttempt_eq]
@[simp] theorem endAttempt_ret (now : Time) (s : State) : (endAttempt now s).ret = s.ret := by rw [endAttempt_eq]

/-- A flush check leaves no entry that was not there. -/
theorem mem_rateAfter {now : Time} {s : State} {e : SourceId × Count} (h : e ∈ rateAfter now s) : e ∈ s.rate := by
  simp only [rateAfter] at h
  split at h
  · simp at h
  · exact h

theorem RateWf.rateAfter {s : State} (now : Time) (h : RateWf s.rate) : RateWf (Machine.rateAfter now s) := by
  simp only [Machine.rateAfter]
  split
  · exact RateWf.nil
  · exact h

/-- An attempt end keeps the stores' canonical form. -/
theorem StoresWf.endAttempt {s : State} (now : Time) (h : StoresWf s) : StoresWf (Machine.endAttempt now s) := by
  obtain ⟨hp, hb, hr, ha⟩ := h
  exact ⟨by simpa using hp, by simpa using hb, by simpa using hr.rateAfter now,
    fun e he => by simpa using ha e (mem_rateAfter (by simpa using he))⟩

/-- An attempt end of a well-formed store leaves the canonical HUNT state of R38. -/
theorem inv_endAttempt {s : State} (now : Time) (h : StoresWf s) : Inv (endAttempt now s) := by
  refine ⟨h.endAttempt now, fun hl => ⟨by simp [PhaseInv, ClearFrame], fun hs => ?_⟩⟩
  simp [lifeAfter] at hl hs
  simp [hs] at hl

end Sys2Proof.Machine
end

