-- ==== Sys2Proof/Laws/Bytes.lean ====
section
/-! SUPPORT. Laws of the byte-order, sign and checksum primitives. -/

namespace Sys2Proof

@[simp] theorem length_leBytes (k v : Nat) : (leBytes k v).length = k := by
  induction k generalizing v with
  | zero => rfl
  | succ k ih => simp [leBytes, ih]

theorem leNat_leBytes (k v : Nat) : leNat (leBytes k v) = v % 256 ^ k := by
  induction k generalizing v with
  | zero => simp [leBytes, leNat, Nat.mod_one]
  | succ k ih =>
    simp only [leBytes, leNat, ih, BitVec.toNat_ofNat]
    have h := Nat.mod_mul (a := 256) (b := 256 ^ k) (x := v)
    rw [show (256 : Nat) ^ (k + 1) = 256 * 256 ^ k from Nat.pow_succ', h]

theorem leNat_lt (s : List Byte) : leNat s < 256 ^ s.length := by
  induction s with
  | nil => simp [leNat]
  | cons b s ih =>
    simp only [leNat, List.length_cons, Nat.pow_succ]
    have := b.isLt
    omega

theorem leBytes_leNat (s : List Byte) : leBytes s.length (leNat s) = s := by
  induction s with
  | nil => rfl
  | cons b s ih =>
    have hb := b.isLt
    have h1 : BitVec.ofNat 8 (b.toNat + 256 * leNat s) = b := by
      apply BitVec.eq_of_toNat_eq
      simp only [BitVec.toNat_ofNat]
      omega
    have h2 : (b.toNat + 256 * leNat s) / 256 = leNat s := by omega
    simp only [List.length_cons, leBytes, leNat, h1, h2, ih]

theorem le16_halfBytes {n : Nat} (h : n < 65536) : (le16 (halfBytes n)).toNat = n := by
  simp only [le16, halfBytes, leNat_leBytes, BitVec.toNat_ofNat]
  omega

theorem le64_timeBytes (t : Time) : le64 (timeBytes t) = t := by
  apply BitVec.eq_of_toNat_eq
  simp only [le64, timeBytes, leNat_leBytes, BitVec.toNat_ofNat]
  have := t.isLt
  omega

@[simp] theorem length_halfBytes (n : Nat) : (halfBytes n).length = 2 := length_leBytes 2 n

@[simp] theorem length_timeBytes (t : Time) : (timeBytes t).length = 8 := length_leBytes 8 _

@[simp] theorem length_sourceBytes (x : SourceId) : (sourceBytes x).length = 6 := by simp [sourceBytes]

theorem packSource_sourceBytes (x : SourceId) : packSource (sourceBytes x) = x := by
  apply BitVec.eq_of_toNat_eq
  simp only [packSource, sourceBytes, List.reverse_reverse, leNat_leBytes, BitVec.toNat_ofNat, sourceIdLen]
  have := x.isLt
  omega

theorem s8_u8of {x : Int} (h : isI8 x = true) : s8 (u8of x) = x := by
  simp only [isI8, decide_eq_true_eq] at h
  simp only [s8, u8of, BitVec.toNat_ofNat]
  split <;> split <;> omega

theorem u8of_s8 (b : Byte) : u8of (s8 b) = b := by
  have := b.isLt
  apply BitVec.eq_of_toNat_eq
  simp only [s8, u8of, BitVec.toNat_ofNat]
  split <;> split <;> omega

theorem isI8_s8 (b : Byte) : isI8 (s8 b) = true := by
  have := b.isLt
  unfold s8
  split <;> simp only [isI8, decide_eq_true_eq] <;> omega

theorem map_s8_u8of {v : List Int} (h : v.all isI8 = true) : (v.map u8of).map s8 = v := by
  induction v with
  | nil => rfl
  | cons x v ih =>
    simp only [List.all_cons, Bool.and_eq_true] at h
    simp only [List.map_cons, s8_u8of h.1, ih h.2]

@[simp] theorem xor8_nil : xor8 [] = 0 := rfl

theorem xor8_append_singleton (s : List Byte) (b : Byte) : xor8 (s ++ [b]) = xor8 s ^^^ b := by
  simp [xor8, List.foldl_append]

theorem foldl_xor (s : List Byte) (a : Byte) : s.foldl (fun a b => a ^^^ b) a = a ^^^ xor8 s := by
  induction s generalizing a with
  | nil => simp [xor8]
  | cons b s ih =>
    simp only [xor8, List.foldl_cons] at ih ⊢
    rw [ih (a ^^^ b), ih (0 ^^^ b)]
    simp [BitVec.xor_assoc]

theorem xor8_cons (b : Byte) (s : List Byte) : xor8 (b :: s) = b ^^^ xor8 s := by
  have := foldl_xor s (0 ^^^ b)
  simpa [xor8] using this

theorem xor8_append (s t : List Byte) : xor8 (s ++ t) = xor8 s ^^^ xor8 t := by
  simp only [xor8, List.foldl_append]
  exact foldl_xor t _

theorem slice_append_left {s t : List Byte} {n : Nat} (h : s.length = n) : slice (s ++ t) 0 n = s := by
  simp [slice, ← h]

theorem slice_append_right {s t : List Byte} {n a b : Nat} (h : s.length = n) :
    slice (s ++ t) (n + a) (n + b) = slice t a b := by
  simp only [slice, ← h, List.drop_append, List.drop_eq_nil_of_le (Nat.le_add_right _ _), List.nil_append,
    Nat.add_sub_cancel_left, Nat.add_sub_add_left]

/-- Every byte of a length prefix, read back (30_encoding R73). -/
theorem lenOf_eq (lo b : Byte) : (lenOf lo b).toNat = lo.toNat + 256 * b.toNat := by
  have := lo.isLt
  have := b.isLt
  simp only [lenOf, le16, leNat, BitVec.toNat_ofNat]
  omega

/-- The fields of an encoded payload (30_encoding R71, R89). -/
theorem length_payloadBytes (src : SourceId) (ts : Time) (v : List Int) :
    (payloadBytes src ts v).length = 16 + v.length := by
  simp only [payloadBytes, List.length_append, length_sourceBytes, length_timeBytes, length_halfBytes, List.length_map]
  omega

theorem source_of_payload (src : SourceId) (ts : Time) (v : List Int) (t : List Byte) :
    packSource (slice (payloadBytes src ts v ++ t) 0 6) = src := by
  rw [payloadBytes, List.append_assoc, slice_append_left (length_sourceBytes src), packSource_sourceBytes]

theorem timestamp_of_payload (src : SourceId) (ts : Time) (v : List Int) (t : List Byte) :
    le64 (slice (payloadBytes src ts v ++ t) 6 14) = ts := by
  have h := slice_append_right (t := timeBytes ts ++ (halfBytes v.length ++ v.map u8of) ++ t) (a := 0) (b := 8)
    (length_sourceBytes src)
  rw [payloadBytes, List.append_assoc]
  simp only [Nat.add_zero, List.append_assoc, Nat.reduceAdd] at h ⊢
  rw [h, slice_append_left (length_timeBytes ts), le64_timeBytes]

theorem count_of_payload (src : SourceId) (ts : Time) (v : List Int) (t : List Byte) (hv : v.length < 65536) :
    (le16 (slice (payloadBytes src ts v ++ t) 14 16)).toNat = v.length := by
  have hl : (sourceBytes src ++ timeBytes ts).length = 14 := by simp
  have h := slice_append_right (t := halfBytes v.length ++ (v.map u8of ++ t)) (a := 0) (b := 2) hl
  simp only [payloadBytes, List.append_assoc, Nat.add_zero, Nat.reduceAdd] at h ⊢
  rw [h, slice_append_left (length_halfBytes _), le16_halfBytes hv]

theorem samples_of_payload (src : SourceId) (ts : Time) (v : List Int) (t : List Byte) (hv : v.all isI8 = true) :
    (slice (payloadBytes src ts v ++ t) 16 (16 + v.length)).map s8 = v := by
  have hl : (sourceBytes src ++ (timeBytes ts ++ halfBytes v.length)).length = 16 := by simp
  have h := slice_append_right (t := v.map u8of ++ t) (a := 0) (b := v.length) hl
  simp only [payloadBytes, List.append_assoc, Nat.add_zero] at h ⊢
  rw [h, slice_append_left (List.length_map _), map_s8_u8of hv]

/-! ### The primitives as arithmetic (00_scope R10) -/

/-- `le16`, `le64` and every little-endian number: byte `i` weighs `2 ^ (8 i)`. -/
theorem leNat_eq_sum (s : List Byte) :
    leNat s = ((List.range s.length).map (fun i => (s.getD i 0).toNat * 2 ^ (8 * i))).sum := by
  induction s with
  | nil => rfl
  | cons b s ih =>
    rw [leNat, ih, List.length_cons, List.range_succ_eq_map, List.map_cons, List.sum_cons, List.map_map,
      ← List.sum_map_mul_left]
    congr 1
    · simp
    · congr 1
      apply List.map_congr_left
      intro i _
      simp only [Function.comp, List.getD_cons_succ, Nat.succ_eq_add_one, Nat.mul_add, Nat.pow_add]
      ring

/-- A bit of `xor8` is the parity of that bit over the bytes. -/
theorem xor8_getLsbD (k : Nat) (s : List Byte) :
    (xor8 s).getLsbD k = decide (s.countP (fun b => b.getLsbD k) % 2 = 1) := by
  induction s with
  | nil => simp
  | cons b s ih =>
    rw [xor8_cons, BitVec.getLsbD_xor, ih, List.countP_cons]
    by_cases h : b.getLsbD k = true
    · simp only [h, if_true, Bool.true_xor]
      by_cases h2 : List.countP (fun b => b.getLsbD k) s % 2 = 1 <;> simp [h2] <;> omega
    · simp [h]

end Sys2Proof
end

