-- ==== Sys2Proof/Laws/Engine.lean ====
section
/-! SUPPORT. Everything a reaction can do (30_encoding R82, R90): the next state of each operation, under the
conditions that select it. -/

namespace Sys2Proof.Machine

/-- Outputs and the attempt end that follows them. -/
theorem endAttempt_emit (now : Time) (os : List Output) (s : State) :
    endAttempt now (s.emit os) = afterAttempt now os s := by
  rw [endAttempt_eq]
  simp [afterAttempt, State.emit, rateAfter, lastFlushAfter, lifeAfter, attemptOutputs, flushOutputs, stopOutputs]
  exact ⟨rfl, rfl, rfl, rfl⟩

/-- What a TIMEOUT reports in each phase (the TIMEOUT rows of R82). -/
def timeoutReport (s : State) : List Output :=
  match s.phase with
  | .hunt => [.noData]
  | .line => [.desync s.lbuf false]
  | .skip => []
  | .len0 | .len1 | .payload | .check => [.frameDropped .truncatedFrame]

/-- What a BYTE can do in a session. -/
abbrev ByteNext (b : Byte) (now : Time) (s t : State) : Prop :=
  (s.phase = .hunt ∧ b = s.cfg.marker ∧ t = { s with phase := .len0 }) ∨
    (s.phase = .hunt ∧ b ≠ s.cfg.marker ∧ b = lineTerm ∧ t = afterAttempt now [.desync [lineTerm] true] s) ∨
    (s.phase = .hunt ∧ b ≠ s.cfg.marker ∧ b ≠ lineTerm ∧ t = { s with lbuf := [b], phase := .line }) ∨
    (s.phase = .line ∧ b = lineTerm ∧ t = afterAttempt now [.desync (s.lbuf ++ [lineTerm]) true] s) ∨
    (s.phase = .line ∧ b ≠ lineTerm ∧ t = { s with lbuf := s.lbuf ++ [b] }) ∨
    (s.phase = .len0 ∧ t = { s with len := zext 16 b, phase := .len1 }) ∨
    (s.phase = .len1 ∧ s.lenAdmitted b = true ∧
      t = { s with len := s.declaredLen b, cnt := 0, xorAcc := 0,
                   phase := if 1 ≤ (s.declaredLen b).toNat then .payload else .check }) ∨
    (s.phase = .len1 ∧ s.lenAdmitted b = false ∧
      t = { s with len := s.declaredLen b, cnt := zext 17 (s.declaredLen b) + 1, phase := .skip,
                   out := s.out ++ [.frameDropped (.lengthOutOfBounds (s.declaredLen b))] }) ∨
    (s.phase = .payload ∧ s.cnt.toNat < s.cfg.maxPayload.toNat ∧
      t = { s with pbuf := s.pbuf.set s.cnt.toNat b, xorAcc := s.xorAcc ^^^ b, cnt := s.cnt + 1,
                   phase := if (s.cnt + 1).toNat = s.len.toNat then .check else s.phase }) ∨
    (s.phase = .check ∧ ∃ p, memRead s 0 s.len.toNat = .ok p ∧ t = endAttempt now (judge s (decodeFrame p b now))) ∨
    (s.phase = .skip ∧ s.cnt = 1 ∧ t = afterAttempt now [] s) ∨
    (s.phase = .skip ∧ s.cnt ≠ 0 ∧ s.cnt ≠ 1 ∧ t = { s with cnt := s.cnt - 1 })

/-- What any event can do. -/
abbrev ReactNext (e : Event) (s t : State) : Prop :=
  (∃ cfg now, e = .start cfg now ∧
      (t = s ∨
        t = { s with cfg := cfg, life := .run, phase := .hunt, len := 0, cnt := 0, xorAcc := 0, pbuf := [], lbuf := [],
                     rate := [], lastFlush := now, stopPending := false, rejCount := 0 })) ∨
    (s.life ≠ .run ∧ e.isStart = false ∧ t = s) ∨
    (s.life = .run ∧
      ((∃ now, e = .fail now ∧ t = { s with life := .failed, out := s.out ++ [.fatal .byteSourceFailure] }) ∨
        (∃ now, e = .stopReq now ∧ s.phase = .hunt ∧ t = { s with life := .stopped, out := s.out ++ [.stopped] }) ∨
        (∃ now, e = .stopReq now ∧ s.phase ≠ .hunt ∧ t = { s with stopPending := true }) ∨
        (∃ now, e = .timeout now ∧ t = afterAttempt now (timeoutReport s) s) ∨
        ∃ b now, e = .byte b now ∧ ByteNext b now s t))

/-- A TIMEOUT always completes. -/
theorem reactTimeout_eq (now : Time) (s : State) :
    reactTimeout now s = .next (afterAttempt now (timeoutReport s) s) := by
  cases h : s.phase <;>
    simp [reactTimeout, h, execHuntTimeout, execLineTimeout, execLen0Timeout, execLen1Timeout, execPayTimeout,
      execChkTimeout, execSkipTimeout, raiseDrop, endAttempt_emit, timeoutReport]
  have := endAttempt_emit now [] s
  simpa [State.emit] using this

theorem reactByte_next {b : Byte} {now : Time} {s t : State} (h : reactByte b now s = .next t) : ByteNext b now s t := by
  cases hp : s.phase <;> simp only [reactByte, hp] at h
  · split at h
    · rename_i hb
      cases h
      exact .inl ⟨hp, hb, rfl⟩
    · split at h
      · rename_i hm hb
        cases h
        subst hb
        exact .inr (.inl ⟨hp, hm, rfl, endAttempt_emit now _ s⟩)
      · rename_i hm hb
        cases h
        exact .inr (.inr (.inl ⟨hp, hm, hb, rfl⟩))
  · split at h
    · rename_i hb
      cases h
      subst hb
      exact .inr (.inr (.inr (.inl ⟨hp, rfl, endAttempt_emit now _ s⟩)))
    · rename_i hb
      cases h
      exact .inr (.inr (.inr (.inr (.inl ⟨hp, hb, rfl⟩))))
  · cases h
    exact .inr (.inr (.inr (.inr (.inr (.inl ⟨hp, rfl⟩)))))
  · split at h
    · rename_i hb
      cases h
      exact .inr (.inr (.inr (.inr (.inr (.inr (.inl ⟨hp, hb, rfl⟩))))))
    · rename_i hb
      cases h
      exact .inr (.inr (.inr (.inr (.inr (.inr (.inr (.inl ⟨hp, by simpa using hb, rfl⟩)))))))
  · by_cases hb : s.cnt.toNat < s.cfg.maxPayload.toNat
    · simp only [execPayByte, memWrite, hb, if_true] at h
      cases h
      exact .inr (.inr (.inr (.inr (.inr (.inr (.inr (.inr (.inl ⟨hp, hb, by rw [hp]⟩))))))))
    · simp [execPayByte, memWrite, hb] at h
  · cases hm : memRead s 0 s.len.toNat with
    | error f => simp [execChkByte, hm] at h
    | ok p =>
      simp only [execChkByte, hm] at h
      cases h
      exact .inr (.inr (.inr (.inr (.inr (.inr (.inr (.inr (.inr (.inl ⟨hp, p, hm, rfl⟩)))))))))
  · simp only [execSkipByte] at h
    split at h
    · cases h
    · split at h
      · rename_i h0 h1
        cases h
        refine .inr (.inr (.inr (.inr (.inr (.inr (.inr (.inr (.inr (.inr (.inl ⟨hp, h1, ?_⟩))))))))))
        rw [endAttempt_eq]
        simp [afterAttempt, rateAfter, lastFlushAfter, lifeAfter, attemptOutputs, flushOutputs, stopOutputs]
      · rename_i h0 h1
        cases h
        exact .inr (.inr (.inr (.inr (.inr (.inr (.inr (.inr (.inr (.inr (.inr (⟨hp, h0, h1, rfl⟩)))))))))))

/-- A reaction's next state is one of those. -/
theorem react_next {e : Event} {s t : State} (h : react e s = .next t) : ReactNext e s t := by
  cases e with
  | start cfg now =>
    simp only [react, execStart] at h
    split at h <;> cases h
    · exact .inl ⟨cfg, now, rfl, .inr rfl⟩
    · exact .inl ⟨cfg, now, rfl, .inl rfl⟩
  | fail now =>
    by_cases hl : s.life = .run <;> simp only [react, hl, if_true, if_false] at h <;> cases h
    · exact .inr (.inr ⟨hl, .inl ⟨now, rfl, rfl⟩⟩)
    · exact .inr (.inl ⟨hl, rfl, rfl⟩)
  | stopReq now =>
    by_cases hl : s.life = .run
    · by_cases hp : s.phase = .hunt <;> simp only [react, hl, hp, if_true, if_false] at h <;> cases h
      · exact .inr (.inr ⟨hl, .inr (.inl ⟨now, rfl, hp, by simp [State.emit, hp]⟩)⟩)
      · exact .inr (.inr ⟨hl, .inr (.inr (.inl ⟨now, rfl, hp, rfl⟩))⟩)
    · simp only [react, hl, if_false] at h
      cases h
      exact .inr (.inl ⟨hl, rfl, rfl⟩)
  | timeout now =>
    by_cases hl : s.life = .run
    · simp only [react, hl, if_true, reactTimeout_eq] at h
      cases h
      exact .inr (.inr ⟨hl, .inr (.inr (.inr (.inl ⟨now, rfl, rfl⟩)))⟩)
    · simp only [react, hl, if_false] at h
      cases h
      exact .inr (.inl ⟨hl, rfl, rfl⟩)
  | byte b now =>
    by_cases hl : s.life = .run
    · simp only [react, hl, if_true] at h
      exact .inr (.inr ⟨hl, .inr (.inr (.inr (.inr ⟨b, now, rfl, reactByte_next h⟩)))⟩)
    · simp only [react, hl, if_false] at h
      cases h
      exact .inr (.inl ⟨hl, rfl, rfl⟩)

end Sys2Proof.Machine
end

