-- ==== Sys2Proof/Laws/Meter.lean ====
section
/-! SUPPORT. What outputs tell of one source's count (43_rate_meter R161 to R163): a reaction's outputs lead from the
count before it to the count after it. -/

namespace Sys2Proof.Machine

/-- The outputs lead from one count of `src` to another: a record counts, a snapshot reports the count and clears it. -/
def Meters (src : SourceId) : Nat → List Output → Nat → Prop
  | k, [], l => k = l
  | k, .rateSnapshot _ counts :: os, l => (∀ c, (src, c) ∈ counts ↔ c.toNat = k ∧ c ≠ 0) ∧ Meters src 0 os l
  | k, .record r :: os, l => Meters src (if r.source = src then min (k + 1) (2 ^ 32 - 1) else k) os l
  | k, .noData :: os, l => Meters src k os l
  | k, .desync _ _ :: os, l => Meters src k os l
  | k, .frameDropped _ :: os, l => Meters src k os l
  | k, .frameAccepted :: os, l => Meters src k os l
  | k, .stopped :: os, l => Meters src k os l
  | k, .fatal _ :: os, l => Meters src k os l

theorem meters_append {src : SourceId} {os ps : List Output} {k l m : Nat} :
    Meters src k os l → Meters src l ps m → Meters src k (os ++ ps) m := by
  induction os generalizing k with
  | nil => rintro rfl h; exact h
  | cons o os ih =>
    cases o with
    | rateSnapshot w counts => exact fun h h2 => ⟨h.1, ih h.2 h2⟩
    | _ => exact fun h h2 => ih (k := _) h h2

/-- An attempt end's outputs, metered. -/
theorem meters_attempt {s : State} (src : SourceId) (now : Time) (h : RateWf s.rate) :
    Meters src (rateOf s.rate src).toNat (attemptOutputs now s) (rateOf (rateAfter now s) src).toNat := by
  simp only [attemptOutputs, flushOutputs, stopOutputs, rateAfter]
  by_cases hf : flushDue now s.lastFlush s.cfg.rateWindowMs = true
  · have hm : ∀ c, (src, c) ∈ snapshot s.rate ↔ c.toNat = (rateOf s.rate src).toNat ∧ c ≠ 0 := fun c => by
      rw [snapshot_of_wf h, h.mem_iff]
      exact and_congr_left fun _ => ⟨fun e => by rw [e], fun e => (BitVec.eq_of_toNat_eq e).symm⟩
    rw [if_pos hf, if_pos hf]
    split <;> exact ⟨hm, rfl⟩
  · rw [if_neg hf, if_neg hf]
    split <;> rfl

/-- The end of an attempt that has emitted `os` without touching a count, metered. -/
theorem meters_after {s : State} (src : SourceId) (now : Time) (os : List Output) (h : RateWf s.rate)
    (ho : ∀ k, Meters src k os k) :
    ∃ new, (afterAttempt now os s).out = s.out ++ new ∧ RateWf (afterAttempt now os s).rate ∧
      Meters src (rateOf s.rate src).toNat new (rateOf (afterAttempt now os s).rate src).toNat :=
  ⟨os ++ attemptOutputs now s, List.append_assoc _ _ _, h.rateAfter now, meters_append (ho _) (meters_attempt src now h)⟩

theorem meters_judge {s : State} (src : SourceId) (now : Time) (x : Except DecodeError Record) (h : RateWf s.rate) :
    ∃ new, (endAttempt now (judge s x)).out = s.out ++ new ∧ RateWf (endAttempt now (judge s x)).rate ∧
      Meters src (rateOf s.rate src).toNat new (rateOf (endAttempt now (judge s x)).rate src).toNat := by
  cases x with
  | error e => rw [judge, endAttempt_emit]; exact meters_after src now _ h fun _ => rfl
  | ok r =>
    simp only [judge]
    split
    · rw [endAttempt_emit]
      have hk : (if r.source = src then min ((rateOf s.rate src).toNat + 1) (2 ^ 32 - 1) else (rateOf s.rate src).toNat) =
          (rateOf (meterInc r.source s).rate src).toNat := by
        split
        · rename_i e; subst e; rw [rateOf_meterInc_same, satInc_toNat]
        · rename_i e; rw [rateOf_meterInc_other s (Ne.symm e)]
      refine ⟨[.frameAccepted, .record r] ++ attemptOutputs now (meterInc r.source s),
        by simp only [afterAttempt, meterInc_out, List.append_assoc], h.meterInc.rateAfter now, ?_⟩
      exact meters_append (l := (rateOf (meterInc r.source s).rate src).toNat) hk (meters_attempt src now h.meterInc)
    · rw [endAttempt_emit]
      exact meters_after (s := { s with rejCount := satInc s.rejCount }) src now _ h fun _ => rfl

/-- A reaction to any event but START, metered; the counts stay in their canonical form. -/
theorem react_meters {e : Event} {s t : State} (src : SourceId) (h : ReactNext e s t) (hw : RateWf s.rate)
    (he : e.isStart = false) :
    ∃ new, t.out = s.out ++ new ∧ RateWf t.rate ∧
      Meters src (rateOf s.rate src).toNat new (rateOf t.rate src).toNat := by
  have quiet : ∀ u : State, u.out = s.out → u.rate = s.rate → ∃ new, u.out = s.out ++ new ∧ RateWf u.rate ∧
      Meters src (rateOf s.rate src).toNat new (rateOf u.rate src).toNat := fun u ho hr =>
    ⟨[], by simp [ho], by rw [hr]; exact hw, by rw [hr]; rfl⟩
  have one : ∀ (u : State) (o : Output), u.out = s.out ++ [o] → u.rate = s.rate → (∀ k, Meters src k [o] k) →
      ∃ new, u.out = s.out ++ new ∧ RateWf u.rate ∧
        Meters src (rateOf s.rate src).toNat new (rateOf u.rate src).toNat := fun u o ho hr hm =>
    ⟨[o], ho, by rw [hr]; exact hw, by rw [hr]; exact hm _⟩
  rcases h with ⟨cfg, now, rfl, _⟩ | ⟨_, _, rfl⟩ |
    ⟨_, ⟨now, rfl, rfl⟩ | ⟨now, rfl, _, rfl⟩ | ⟨now, rfl, _, rfl⟩ | ⟨now, rfl, rfl⟩ | ⟨b, now, rfl, hb⟩⟩
  · cases he
  · exact quiet _ rfl rfl
  · exact one _ _ rfl rfl fun _ => rfl
  · exact one _ _ rfl rfl fun _ => rfl
  · exact quiet _ rfl rfl
  · exact meters_after src now _ hw fun k => by cases hp : s.phase <;> simp only [timeoutReport, hp] <;> rfl
  · rcases hb with ⟨_, _, rfl⟩ | ⟨_, _, _, rfl⟩ | ⟨_, _, _, rfl⟩ | ⟨_, _, rfl⟩ | ⟨_, _, rfl⟩ | ⟨_, rfl⟩ | ⟨_, _, rfl⟩ |
      ⟨_, _, rfl⟩ | ⟨_, _, rfl⟩ | ⟨_, p, _, rfl⟩ | ⟨_, _, rfl⟩ | ⟨_, _, _, rfl⟩
    · exact quiet _ rfl rfl
    · exact meters_after src now _ hw fun _ => rfl
    · exact quiet _ rfl rfl
    · exact meters_after src now _ hw fun _ => rfl
    · exact quiet _ rfl rfl
    · exact quiet _ rfl rfl
    · exact quiet _ rfl rfl
    · exact one _ _ rfl rfl fun _ => rfl
    · exact quiet _ rfl rfl
    · exact meters_judge src now _ hw
    · exact meters_after src now _ hw fun _ => rfl
    · exact quiet _ rfl rfl

end Sys2Proof.Machine
end

