-- ==== Sys2Proof/Laws/PerInstr.lean ====
section
/-! SUPPORT. One statement about every instruction as syntax: an image has at least ten bytes, its head byte, what the
event or the wire carries, and the clock reading (30_encoding R79, R91). -/

namespace Sys2Proof.Laws.ImageLength

/-- Every image of `i` has at least ten bytes. -/
def Statement (i : Instr) : Prop := ∀ (ctx : SelCtx) (bs : List Byte), encode ctx i = some bs → 10 ≤ bs.length

/-- An OP image has ten. -/
theorem of_op {i : Instr} {key : Key} {b : Byte} {now : Time} (h : ∀ ctx, encode ctx i = some (opImage key b now)) :
    Statement i := by
  intro ctx bs he
  rw [h ctx, Option.some.injEq] at he
  simp [← he, opImage, eventBytes]

/-- An EVENT image has ten. -/
theorem of_event {i : Instr} {x b : Byte} {now : Time} (h : ∀ ctx, encode ctx i = some (x :: eventBytes b now)) :
    Statement i := by
  intro ctx bs he
  rw [h ctx, Option.some.injEq] at he
  simp [← he, eventBytes]

/-- A PROC row has no image. -/
theorem of_proc {i : Instr} (h : ∀ ctx, encode ctx i = none) : Statement i := by
  intro ctx bs he
  rw [h ctx] at he
  cases he

theorem start (cfg : Config) (now : Time) : Statement (.start cfg now) := of_op fun _ => rfl
theorem nopIdle (e : Event) : Statement (.nopIdle e) := of_op fun _ => rfl
theorem fail (now : Time) : Statement (.fail now) := of_op fun _ => rfl
theorem stopNow (now : Time) : Statement (.stopNow now) := of_op fun _ => rfl
theorem stopPend (now : Time) : Statement (.stopPend now) := of_op fun _ => rfl
theorem huntMarker (b : Byte) (now : Time) : Statement (.huntMarker b now) := of_op fun _ => rfl
theorem huntEol (b : Byte) (now : Time) : Statement (.huntEol b now) := of_op fun _ => rfl
theorem huntText (b : Byte) (now : Time) : Statement (.huntText b now) := of_op fun _ => rfl
theorem huntTimeout (now : Time) : Statement (.huntTimeout now) := of_op fun _ => rfl
theorem lineEol (b : Byte) (now : Time) : Statement (.lineEol b now) := of_op fun _ => rfl
theorem lineText (b : Byte) (now : Time) : Statement (.lineText b now) := of_op fun _ => rfl
theorem lineTimeout (now : Time) : Statement (.lineTimeout now) := of_op fun _ => rfl
theorem lenLo (b : Byte) (now : Time) : Statement (.lenLo b now) := of_op fun _ => rfl
theorem len0Timeout (now : Time) : Statement (.len0Timeout now) := of_op fun _ => rfl
theorem lenHi (b : Byte) (now : Time) : Statement (.lenHi b now) := of_op fun _ => rfl
theorem lenHiOob (b : Byte) (now : Time) : Statement (.lenHiOob b now) := of_op fun _ => rfl
theorem len1Timeout (now : Time) : Statement (.len1Timeout now) := of_op fun _ => rfl
theorem payByte (b : Byte) (now : Time) : Statement (.payByte b now) := of_op fun _ => rfl
theorem payTimeout (now : Time) : Statement (.payTimeout now) := of_op fun _ => rfl
theorem chkByte (b : Byte) (now : Time) : Statement (.chkByte b now) := of_op fun _ => rfl
theorem chkTimeout (now : Time) : Statement (.chkTimeout now) := of_op fun _ => rfl
theorem skipByte (b : Byte) (now : Time) : Statement (.skipByte b now) := of_op fun _ => rfl
theorem skipTimeout (now : Time) : Statement (.skipTimeout now) := of_op fun _ => rfl
theorem decode (p : List Byte) (c : Byte) (now : Time) : Statement (.decode p c now) := of_proc fun _ => rfl
theorem filter (src : SourceId) : Statement (.filter src) := of_proc fun _ => rfl
theorem meterInc (src : SourceId) : Statement (.meterInc src) := of_proc fun _ => rfl
theorem meterFlush (now : Time) : Statement (.meterFlush now) := of_proc fun _ => rfl
theorem endAttempt (now : Time) : Statement (.endAttempt now) := of_proc fun _ => rfl
theorem frame (p : List Byte) (c : Byte) (now : Time) : Statement (.frame p c now) := by
  intro ctx bs he
  simp only [encode, Option.some.injEq] at he
  simp [← he, frameBytes]
  omega
theorem payload (src : SourceId) (ts : Time) (v : List Int) (now : Time) : Statement (.payload src ts v now) := by
  intro ctx bs he
  simp only [encode, Option.some.injEq] at he
  simp [← he, length_payloadBytes]
  omega
theorem textLine (x : Byte) (ys : List Byte) (t : Bool) (now : Time) : Statement (.textLine x ys t now) := by
  intro ctx bs he
  simp only [encode, Option.some.injEq] at he
  have h : 1 ≤ (textBytes x ys t).length := by
    unfold textBytes
    split <;> simp
  simp only [← he, List.length_cons, List.length_append, length_timeBytes]
  omega
theorem evStart (cfg : Config) (now : Time) : Statement (.evStart cfg now) := of_event fun _ => rfl
theorem evByte (b : Byte) (now : Time) : Statement (.evByte b now) := of_event fun _ => rfl
theorem evTimeout (now : Time) : Statement (.evTimeout now) := of_event fun _ => rfl
theorem evStopReq (now : Time) : Statement (.evStopReq now) := of_event fun _ => rfl
theorem evFail (now : Time) : Statement (.evFail now) := of_event fun _ => rfl

end Sys2Proof.Laws.ImageLength
end

