-- ==== Sys2Proof/Tests/Slice0.lean ====
section
/-! SUPPORT. The model's own tests: ill-formed terms refused, images written out from spec 30_encoding, the vectors of
95_test_vectors, and a witness for the hypotheses of each statement. -/

namespace Sys2Proof.Tests

open Sys2Proof.Machine

/-! ### Helpers -/

/-- The next state, if there is one. -/
def nextOf : Result → Option State
  | .next s => some s
  | _ => none

/-- The fault, if there is one. -/
def faultOf : Result → Option Fault
  | .fault f => some f
  | _ => none

/-- A field of the next state. -/
def field {α : Type} (f : State → α) (r : Result) : Option α := (nextOf r).map f

/-- Source `A` of 95_test_vectors. -/
def srcA : SourceId := 0xAABBCCDDEEFF

/-- Source `B` of 95_test_vectors. -/
def srcB : SourceId := 0x112233445566

/-- The default configuration with `ALLOW = {A}`. -/
def cfgA : Config := { Config.default with allow := [⟨true, srcA⟩] }

/-- A running session in HUNT, canonical, `last_flush = 0`. -/
def hunt : State := { State.reset with life := .run, cfg := cfgA }

/-- A session in LINE that holds `ab`. -/
def line : State := { hunt with phase := .line, lbuf := [0x61, 0x62] }

/-- A session in LEN0. -/
def len0 : State := { hunt with phase := .len0 }

/-- A session in LEN1 whose low length byte is `lo`. -/
def len1 (lo : Byte) : State := { hunt with phase := .len1, len := zext 16 lo }

/-- The 18 payload bytes of frame F1 (95_test_vectors). -/
def p1 : List Byte :=
  [0xAA, 0xBB, 0xCC, 0xDD, 0xEE, 0xFF, 0xE8, 0x03, 0x00, 0x00, 0x00, 0x00, 0x00, 0x00, 0x02, 0x00, 0x05, 0xFA]

/-- Bytes in the cells from 0 on. -/
def cellsOf (p : List Byte) : Memory := p.zipIdx.map (fun x => (x.2, x.1))

/-- A session in PAYLOAD that has stored the bytes `p` of a payload of length `n`. -/
def pay (n : Half) (p : List Byte) : State :=
  { hunt with phase := .payload, len := n, cnt := BitVec.ofNat 17 p.length, xorAcc := xor8 p, pbuf := cellsOf p }

/-- A session in CHECK that has stored the payload `p`. -/
def chk (p : List Byte) : State := { pay (BitVec.ofNat 16 p.length) p with phase := .check }

/-- A session in SKIP with `n` bytes to go of a frame of length `n - 1`. -/
def skip (l : Half) (n : BitVec 17) : State := { hunt with phase := .skip, len := l, cnt := n }

/-- The record of F1. -/
def rec1 (now : Time) : Record :=
  { source := srcA, deviceTimestamp := 1000, hostReceiveTimestamp := now, samples := [5, -6] }

/-- The same under another marker. -/
def withMarker (m : Byte) (s : State) : State := { s with cfg := { s.cfg with marker := m } }

/-- The same with an event presented. -/
def given (s : State) (e : Event) : State := { s with input := [e] }

/-! ### WellFormed refuses an ill-formed term at each check -/

theorem test_wf_nop : (Instr.nopIdle (.start cfgA 0)).wellFormed SelCtx.default = false := by decide
theorem test_wf_hunt :
    (Instr.huntMarker 0xA4 0).wellFormed SelCtx.default = false ∧
      (Instr.huntEol 0x0B 0).wellFormed SelCtx.default = false ∧
      (Instr.huntEol 0x0A 0).wellFormed { SelCtx.default with marker := 0x0A } = false ∧
      (Instr.huntText 0xA5 0).wellFormed SelCtx.default = false ∧
      (Instr.huntText 0x0A 0).wellFormed SelCtx.default = false := by decide
theorem test_wf_line :
    (Instr.lineEol 0x0B 0).wellFormed SelCtx.default = false ∧
      (Instr.lineText 0x0A 0).wellFormed SelCtx.default = false := by decide
theorem test_wf_len :
    (Instr.lenHi 0x02 0).wellFormed { SelCtx.default with lenLo := 1 } = false ∧
      (Instr.lenHi 0x00 0).wellFormed { SelCtx.default with lenLo := 15 } = false ∧
      (Instr.lenHiOob 0x02 0).wellFormed SelCtx.default = false ∧
      (Instr.lenHiOob 0x00 0).wellFormed { SelCtx.default with lenLo := 16 } = false := by decide
theorem test_wf_long (c : Byte) :
    (Instr.decode (List.replicate 65536 c) c 0).wellFormed SelCtx.default = false ∧
      (Instr.frame (List.replicate 65536 c) c 0).wellFormed SelCtx.default = false ∧
      (Instr.payload srcA 0 (List.replicate 65536 0) 0).wellFormed SelCtx.default = false := by
  simp only [Instr.wellFormed, List.length_replicate]
  decide
theorem test_wf_sample :
    (Instr.payload srcA 0 [128] 0).wellFormed SelCtx.default = false ∧
      (Instr.payload srcA 0 [-129] 0).wellFormed SelCtx.default = false := by decide
theorem test_wf_text :
    (Instr.textLine 0xA5 [] true 0).wellFormed SelCtx.default = false ∧
      (Instr.textLine 0x61 [0x0A] true 0).wellFormed SelCtx.default = false ∧
      (Instr.textLine 0x0A [0x61] true 0).wellFormed SelCtx.default = false ∧
      (Instr.textLine 0x0A [] false 0).wellFormed SelCtx.default = false := by decide
theorem test_wf_cfg :
    (Instr.start cfgA 0).cfgFits Config.default = false ∧ (Instr.evStart cfgA 0).cfgFits Config.default = false := by
  decide

/-! ### Decoding: images written out from R70, R71, R78, R79, R91 and the table's match column -/

/-- An event image: a head byte, a data byte, a clock reading below 256. -/
def img (h b t : Byte) : List Byte := [h, b, t, 0, 0, 0, 0, 0, 0, 0]

/-- The instruction read under the default comparator inputs with low length byte `lo`. -/
def dec (lo : Byte) (bs : List Byte) : Option Instr :=
  match decode { SelCtx.default with lenLo := lo } cfgA bs with
  | .ok (i, []) => some i
  | _ => none

theorem test_decode_system :
    dec 0 (img 0x00 0 7) = some (.start cfgA 7) ∧ dec 0 (img 0x78 0 7) = some (.start cfgA 7) ∧
      dec 0 (img 0x04 0 7) = some (.nopIdle (.fail 7)) ∧ dec 0 (img 0x31 0x41 7) = some (.nopIdle (.byte 0x41 7)) ∧
      dec 0 (img 0x44 0 7) = some (.fail 7) ∧ dec 0 (img 0x74 0 7) = some (.fail 7) ∧
      dec 0 (img 0x43 0 7) = some (.stopNow 7) ∧ dec 0 (img 0x4B 0 7) = some (.stopPend 7) := by decide
theorem test_decode_hunt :
    dec 0 (img 0x41 0xA5 7) = some (.huntMarker 0xA5 7) ∧ dec 0 (img 0x41 0x0A 7) = some (.huntEol 0x0A 7) ∧
      dec 0 (img 0x41 0x62 7) = some (.huntText 0x62 7) ∧ dec 0 (img 0x42 0 7) = some (.huntTimeout 7) := by decide
theorem test_decode_line :
    dec 0 (img 0x49 0x0A 7) = some (.lineEol 0x0A 7) ∧ dec 0 (img 0x49 0xA5 7) = some (.lineText 0xA5 7) ∧
      dec 0 (img 0x4A 0 7) = some (.lineTimeout 7) := by decide
theorem test_decode_len :
    dec 0 (img 0x51 0x12 7) = some (.lenLo 0x12 7) ∧ dec 0 (img 0x52 0 7) = some (.len0Timeout 7) ∧
      dec 16 (img 0x59 0 7) = some (.lenHi 0 7) ∧ dec 15 (img 0x59 0 7) = some (.lenHiOob 0 7) ∧
      dec 0 (img 0x59 2 7) = some (.lenHi 2 7) ∧ dec 1 (img 0x59 2 7) = some (.lenHiOob 2 7) ∧
      dec 0 (img 0x5A 0 7) = some (.len1Timeout 7) := by decide
theorem test_decode_payload :
    dec 0 (img 0x61 0xA5 7) = some (.payByte 0xA5 7) ∧ dec 0 (img 0x62 0 7) = some (.payTimeout 7) ∧
      dec 0 (img 0x69 0x07 7) = some (.chkByte 0x07 7) ∧ dec 0 (img 0x6A 0 7) = some (.chkTimeout 7) ∧
      dec 0 (img 0x71 0x33 7) = some (.skipByte 0x33 7) ∧ dec 0 (img 0x72 0 7) = some (.skipTimeout 7) := by decide
theorem test_decode_event :
    dec 0 (img 0x80 0 7) = some (.evStart cfgA 7) ∧ dec 0 (img 0x81 0xA5 7) = some (.evByte 0xA5 7) ∧
      dec 0 (img 0x82 0 7) = some (.evTimeout 7) ∧ dec 0 (img 0x83 0 7) = some (.evStopReq 7) ∧
      dec 0 (img 0x84 0 7) = some (.evFail 7) := by decide
theorem test_decode_frame :
    dec 0 ([0xC0, 7, 0, 0, 0, 0, 0, 0, 0, 0xA5, 0x12, 0x00] ++ p1 ++ [0x07]) = some (.frame p1 0x07 7) := by decide
theorem test_decode_wire_payload :
    dec 0 ([0xC1, 7, 0, 0, 0, 0, 0, 0, 0] ++ p1) = some (.payload srcA 1000 [5, -6] 7) := by decide
theorem test_decode_text :
    dec 0 [0xC2, 7, 0, 0, 0, 0, 0, 0, 0, 0x68, 0x69, 0x0D, 0x0A] = some (.textLine 0x68 [0x69, 0x0D] true 7) ∧
      dec 0 [0xC2, 7, 0, 0, 0, 0, 0, 0, 0, 0x0A] = some (.textLine 0x0A [] true 7) ∧
      dec 0 [0xC2, 7, 0, 0, 0, 0, 0, 0, 0, 0x61] = some (.textLine 0x61 [] false 7) := by decide
/-- R82: an internal procedure is never selected by an event, and has no image. -/
theorem test_encode_proc :
    encode SelCtx.default (.decode p1 7 0) = none ∧ encode SelCtx.default (.filter srcA) = none ∧
      encode SelCtx.default (.meterInc srcA) = none ∧ encode SelCtx.default (.meterFlush 0) = none ∧
      encode SelCtx.default (.endAttempt 0) = none := by decide
/-- Keys no row matches: phase code 7 in a session, kinds 5 to 7. -/
theorem test_decode_refused :
    dec 0 (img 0x79 0 7) = none ∧ dec 0 (img 0x05 0 7) = none ∧ dec 0 (img 0x47 0 7) = none ∧
      dec 0 (img 0x85 0 7) = none ∧ dec 0 [0xC3] = none ∧ dec 0 [] = none ∧
      dec 0 [0xC0, 7, 0, 0, 0, 0, 0, 0, 0, 0xA4, 0x00, 0x00, 0x00] = none ∧
      dec 0 [0xC2, 7, 0, 0, 0, 0, 0, 0, 0, 0xA5] = none ∧ dec 0 [0x41, 0xA5, 7] = none := by decide

/-! ### The encoder of a conforming frame (R89) and the stream notation (R86, R87) -/

/-- F1, FB, D2, D3 of 95_test_vectors. -/
theorem test_encode_frame :
    encodeFrame 0xA5 srcA 1000 [5, -6] = [0xA5, 0x12, 0x00] ++ p1 ++ [0x07] ∧
      encodeFrame 0xA5 srcB 77 [1] =
        [0xA5, 0x11, 0x00, 0x11, 0x22, 0x33, 0x44, 0x55, 0x66, 0x4D, 0, 0, 0, 0, 0, 0, 0, 0x01, 0x00, 0x01, 0x3A] ∧
      encodeFrame 0xA5 srcB 0x0102030405060708 [-128] =
        [0xA5, 0x11, 0x00, 0x11, 0x22, 0x33, 0x44, 0x55, 0x66, 8, 7, 6, 5, 4, 3, 2, 1, 0x01, 0x00, 0x80, 0xFE] := by
  decide
theorem test_expand :
    expand 0xA5 0 [.clock 5, .hex 0xA5, .text ['h', 'i'], .oob 513, .tick, .stop, .clock 6, .fail] =
      [.byte 0xA5 5, .byte 0x68 5, .byte 0x69 5, .byte 0xA5 5, .byte 0x01 5, .byte 0x02 5, .timeout 5, .stopReq 5,
       .fail 6] := by decide
/-- R89 and R87 under a configured marker: a frame carries it, `OOB` its literal `A5`. -/
theorem test_expand_marker :
    expand 0xA5 0 [.frame srcA 0 [], .start (withMarker 0x0A hunt).cfg, .frame srcA 0 [], .oob 513] =
      bytesAt 0 [0xA5, 0x10, 0, 0xAA, 0xBB, 0xCC, 0xDD, 0xEE, 0xFF, 0, 0, 0, 0, 0, 0, 0, 0, 0, 0, 0x11] ++
        .start { cfgA with marker := 0x0A } 0 ::
        bytesAt 0 [0x0A, 0x10, 0, 0xAA, 0xBB, 0xCC, 0xDD, 0xEE, 0xFF, 0, 0, 0, 0, 0, 0, 0, 0, 0, 0, 0x11,
          0xA5, 0x01, 0x02] := by decide
/-- V2: `BADSUM(F1, 0xFF)` ends in `F8`. -/
theorem test_badsum : corruptLast (encodeFrame 0xA5 srcA 1000 [5, -6]) 0xFF = [0xA5, 0x12, 0x00] ++ p1 ++ [0xF8] := by
  decide

/-! ### The system operations (vectors Y1 to Y12) -/

/-- Y2. -/
theorem test_start :
    field (fun t => (t.life, t.phase, t.lastFlush, t.rate)) (exec (.start cfgA 5000) State.reset) =
      some (.run, .hunt, 5000, []) := by decide
/-- Y12: a START in mid-frame abandons it silently. -/
theorem test_start_restarts :
    field (fun t => (t.phase, t.len, t.cnt, t.out, t.lastFlush)) (exec (.evStart cfgA 100) (pay 18 [0xAA, 0xBB])) =
      some (.hunt, 0, 0, [], 100) := by decide
/-- Y1. -/
theorem test_nop_idle :
    nextOf (exec (.nopIdle (.byte 0xA5 0)) State.reset) = some State.reset ∧
      nextOf (exec (.evByte 0xA5 0) State.reset) = some State.reset := by decide
/-- Y9: the frame stays as it was, frozen. -/
theorem test_fail :
    field (fun t => (t.life, t.phase, t.len, t.cnt, t.out)) (exec (.evFail 0) (pay 18 [0xAA, 0xBB, 0xCC, 0xDD])) =
      some (.failed, .payload, 18, 4, [.fatal .byteSourceFailure]) := by decide
/-- Y3, Y4. -/
theorem test_stop :
    field (fun t => (t.life, t.stopPending, t.out)) (exec (.evStopReq 2) hunt) = some (.stopped, false, [.stopped]) ∧
      field (fun t => (t.life, t.stopPending, t.out)) (exec (.evStopReq 2) (pay 18 [0xAA])) = some (.run, true, []) := by
  decide
/-- Y8: a stop pending is observed at the attempt's end, after its result. -/
theorem test_stop_observed :
    field (fun t => (t.life, t.out)) (exec (.evTimeout 102) { pay 18 [0xAA] with stopPending := true }) =
      some (.stopped, [.frameDropped .truncatedFrame, .stopped]) := by decide

/-! ### The Frame Scanner (vectors S1 to S32) -/

/-- S1, S29: the marker test comes first, also where the marker is the terminator. -/
theorem test_hunt_marker :
    field State.phase (exec (.evByte 0xA5 0) hunt) = some .len0 ∧
      field State.phase (exec (.evByte 0x0A 0) (withMarker 0x0A hunt)) = some .len0 := by decide
/-- S2, S3. -/
theorem test_hunt_text :
    field (fun t => (t.phase, t.lbuf)) (exec (.evByte 0x62 0) hunt) = some (.line, [0x62]) ∧
      field (fun t => (t.phase, t.out)) (exec (.evByte 0x0A 0) hunt) = some (.hunt, [.desync [0x0A] true]) := by decide
/-- S4, S5: the window's boundary. -/
theorem test_hunt_timeout :
    field State.out (exec (.huntTimeout 999) hunt) = some [.noData] ∧
      field (fun t => (t.out, t.lastFlush)) (exec (.huntTimeout 1000) hunt) =
        some ([.noData, .rateSnapshot 1000 []], 1000) := by decide
/-- S8, S30: in LINE the marker is text and `0x0A` ends the line. -/
theorem test_line :
    field (fun t => (t.phase, t.lbuf)) (exec (.evByte 0xA5 0) line) = some (.line, [0x61, 0x62, 0xA5]) ∧
      field (fun t => (t.phase, t.out)) (exec (.evByte 0x0A 0) (withMarker 0x0A line)) =
        some (.hunt, [.desync [0x61, 0x62, 0x0A] true]) := by decide
/-- S9. -/
theorem test_line_timeout :
    field (fun t => (t.phase, t.lbuf, t.out)) (exec (.lineTimeout 0) line) =
      some (.hunt, [], [.desync [0x61, 0x62] false]) := by decide
/-- S10, S22. -/
theorem test_len0 :
    field (fun t => (t.phase, t.len)) (exec (.evByte 0x12 0) len0) = some (.len1, 0x0012) ∧
      field (fun t => (t.phase, t.out)) (exec (.len0Timeout 0) len0) =
        some (.hunt, [.frameDropped .truncatedFrame]) := by decide
/-- S13, S14: both bounds are included. -/
theorem test_len_hi :
    field (fun t => (t.phase, t.len)) (exec (.evByte 0x00 0) (len1 0x10)) = some (.payload, 16) ∧
      field (fun t => (t.phase, t.len)) (exec (.evByte 0x02 0) (len1 0x00)) = some (.payload, 512) := by decide
/-- S12, S15. -/
theorem test_len_hi_oob :
    field (fun t => (t.phase, t.len, t.cnt, t.out)) (exec (.evByte 0x00 0) (len1 0x0F)) =
        some (.skip, 15, 16, [.frameDropped (.lengthOutOfBounds 15)]) ∧
      field (fun t => (t.phase, t.len, t.cnt, t.out)) (exec (.evByte 0x02 0) (len1 0x01)) =
        some (.skip, 513, 514, [.frameDropped (.lengthOutOfBounds 513)]) := by decide
/-- S18: `0xFFFF` needs the seventeenth bit; S23. -/
theorem test_len1 :
    field (fun t => (t.len, t.cnt)) (exec (.evByte 0xFF 0) (len1 0xFF)) = some (65535, 65536) ∧
      field (fun t => (t.phase, t.len, t.out)) (exec (.len1Timeout 0) (len1 0x12)) =
        some (.hunt, 0, [.frameDropped .truncatedFrame]) := by decide
/-- Bytes 13 and 29 of program P1: `xor_acc` through F1. -/
theorem test_pay_byte :
    field (fun t => (t.phase, t.cnt, t.xorAcc, t.pbuf.cell 1)) (exec (.payByte 0xBB 0) (pay 18 [0xAA])) =
        some (.payload, 2, 0x11, some 0xBB) ∧
      field (fun t => (t.phase, t.cnt, t.xorAcc)) (exec (.evByte 0xFA 0) (pay 18 (p1.take 17))) =
        some (.check, 18, 0x07) := by decide
/-- S24, S26. -/
theorem test_frame_timeout :
    field (fun t => (t.phase, t.cnt, t.out)) (exec (.payTimeout 0) (pay 18 [])) =
        some (.hunt, 0, [.frameDropped .truncatedFrame]) ∧
      field (fun t => (t.phase, t.xorAcc, t.out)) (exec (.chkTimeout 0) (chk p1)) =
        some (.hunt, 0, [.frameDropped .truncatedFrame]) := by decide
/-- S16, S17. -/
theorem test_skip_byte :
    field (fun t => (t.phase, t.cnt)) (exec (.skipByte 0xA5 0) (skip 513 2)) = some (.skip, 1) ∧
      field (fun t => (t.phase, t.len, t.cnt, t.out)) (exec (.evByte 0x07 0) (skip 513 1)) =
        some (.hunt, 0, 0, []) := by decide
/-- S32. -/
theorem test_skip_timeout :
    field (fun t => (t.phase, t.cnt, t.out)) (exec (.skipTimeout 0) (skip 65535 65526)) = some (.hunt, 0, []) := by
  decide
/-- R117 on its own. -/
theorem test_end_attempt :
    field (fun t => (t.phase, t.life, t.out)) (exec (.endAttempt 1000) { line with stopPending := true }) =
      some (.hunt, .stopped, [.rateSnapshot 1000 [], .stopped]) := by decide

/-! ### The Frame Decoder and the Source Filter (vectors D1 to D10, F1v to F6v, V1, V2, V6) -/

/-- V1. -/
theorem test_chk_byte :
    field (fun t => (t.phase, t.rate, t.out)) (exec (.chkByte 0x07 500) (chk p1)) =
      some (.hunt, [(srcA, 1)], [.frameAccepted, .record (rec1 500)]) := by decide
/-- V2. -/
theorem test_chk_byte_flipped :
    field (fun t => (t.rate, t.out)) (exec (.evByte 0xF8 0) (chk p1)) =
      some ([], [.frameDropped (.checksumMismatch 0x07 0xF8)]) := by decide
/-- F1v: FB against `ALLOW = {A}`, as bytes on the wire. -/
theorem test_frame_foreign :
    field (fun t => (t.rejCount, t.rate, t.out)) (exec (.frame (payloadBytes srcB 77 [1]) 0x3A 0) hunt) =
      some (1, [], [.frameDropped (.sourceNotAllowed srcB)]) := by decide
/-- S20: a header that declares length 0, its checksum byte skipped. -/
theorem test_frame_out_of_bounds :
    field (fun t => (t.phase, t.out)) (exec (.frame [] 0x33 0) hunt) =
      some (.hunt, [.frameDropped (.lengthOutOfBounds 0)]) := by decide
/-- V6a, V6c. -/
theorem test_decode_count :
    field State.ret (exec (.decode (p1.set 14 3) 0x06 0) hunt) = some (some (.decodeFailed .payloadLengthError)) ∧
      field State.ret (exec (.decode (p1.set 14 1) 0x04 9) hunt) =
        some (some (.decoded { rec1 9 with samples := [5] })) := by decide
/-- D4, D5, D7: the checksum is tested before the header. -/
theorem test_decode_errors :
    field State.ret (exec (.decode [1, 2, 4] 7 0) hunt) = some (some (.decodeFailed .headerError)) ∧
      field State.ret (exec (.decode [1, 2, 4] 0 0) hunt) = some (some (.decodeFailed (.checksumMismatch 7 0))) ∧
      field State.ret (exec (.decode [] 0 0) hunt) = some (some (.decodeFailed .headerError)) := by decide
/-- V9 and D2: the signed bytes. -/
theorem test_s8 : [s8 0x00, s8 0x7F, s8 0x80, s8 0xFA, s8 0xFF] = [0, 127, -128, -6, -1] := by decide
/-- F3v, F2v: one bit differs; an empty list rejects all; an entry not valid matches nothing. -/
theorem test_filter :
    field State.ret (exec (.filter srcA) hunt) = some (some (.filtered true)) ∧
      field State.ret (exec (.filter 0xAABBCCDDEEFE) hunt) = some (some (.filtered false)) ∧
      field State.ret (exec (.filter srcA) { hunt with cfg := { cfgA with allow := [⟨false, srcA⟩] } }) =
        some (some (.filtered false)) := by decide
/-- The payload of F1 on the wire, from the start of PAYLOAD. -/
theorem test_wire_payload :
    field (fun t => (t.phase, t.cnt, t.xorAcc, t.pbuf.cell 6)) (exec (.payload srcA 1000 [5, -6] 0) (pay 18 [])) =
      some (.check, 18, 0x07, some 0xE8) := by decide
/-- S6 and V5b: a line with its terminator; one that a timeout ends. -/
theorem test_text_line :
    field (fun t => (t.phase, t.out)) (exec (.textLine 0x68 [0x69, 0x0D] true 0) hunt) =
        some (.hunt, [.desync [0x68, 0x69, 0x0D, 0x0A] true]) ∧
      field (fun t => (t.phase, t.out)) (exec (.textLine 0x00 [] false 0) hunt) =
        some (.hunt, [.desync [0x00] false]) := by decide

/-! ### The Rate Meter (vectors M1 to M11, V8) -/

/-- M11: saturation. -/
theorem test_meter_inc :
    field State.rate (exec (.meterInc srcA) hunt) = some [(srcA, 1)] ∧
      field State.rate (exec (.meterInc srcA) { hunt with rate := [(srcA, 0xFFFFFFFF)] }) =
        some [(srcA, 0xFFFFFFFF)] := by decide
/-- V8 at 11000: `B` before `A`; M5: a clock that ran backwards flushes nothing. -/
theorem test_meter_flush :
    field (fun t => (t.rate, t.lastFlush, t.out))
        (exec (.meterFlush 11000) { hunt with rate := [(srcB, 1), (srcA, 3)], lastFlush := 10000 }) =
        some ([], 11000, [.rateSnapshot 11000 [(srcB, 1), (srcA, 3)]]) ∧
      field (fun t => (t.lastFlush, t.out)) (exec (.meterFlush 4000) { hunt with lastFlush := 5000 }) =
        some (5000, []) := by decide
/-- M1: the record comes before the snapshot, and counts in it. -/
theorem test_flush_after_record :
    field State.out (exec (.chkByte 0x07 1000) (chk p1)) =
      some [.frameAccepted, .record (rec1 1000), .rateSnapshot 1000 [(srcA, 1)]] := by decide

/-! ### Witnesses: for each statement with hypotheses, a state and operands that meet them -/

theorem witness_StepRunsSelectedOperation :
    State.reset.input = [] ∧ (given hunt (.byte 0xA5 3)).input = [.byte 0xA5 3] ∧
      State.operation hunt (.byte 0xA5 3) = some (.huntMarker 0xA5 3) ∧ faultOf (step State.reset) = some .noEvent := by
  decide
theorem witness_FetchedWordRunsDecodedInstruction :
    tableEvent 16 0x1059 = some (0x59, .byte 0x10 0) ∧ BitVec.extractLsb' 3 3 (0x59 : Key) ≠ 7 ∧
      decodeTableWord 16 0x1059 = some (.lenHiOob 0x10 0) := by decide
theorem witness_DecodeOfEncodeIsInstruction :
    (Instr.frame p1 7 3).wellFormed SelCtx.default = true ∧ (Instr.frame p1 7 3).cfgFits cfgA = true ∧
      (encode SelCtx.default (.frame p1 7 3)).isSome = true ∧ (Instr.frame p1 7 3).selfDelimiting = true ∧
      (Instr.textLine 0x61 [0x62] false 3).wellFormed SelCtx.default = true ∧
      (encode SelCtx.default (.textLine 0x61 [0x62] false 3)).isSome = true ∧
      (Instr.start cfgA 3).cfgFits cfgA = true := by decide
theorem witness_DecodedInstructionIsWellFormed :
    decode SelCtx.default cfgA (img 0x44 0 7) = .ok (.fail 7, []) := by decide
theorem witness_StartLoadsConfigurationAndResets :
    admits { allowCapacity := some 1, pbufCapacity := some 512 } cfgA = true ∧ admits hunt.impl cfgA = true := by decide
theorem witness_StartBeyondCapacityKeepsState :
    admits { allowCapacity := some 0, pbufCapacity := none } cfgA = false ∧
      admits { allowCapacity := none, pbufCapacity := some 511 } cfgA = false := by decide
theorem witness_IdleOutsideSession :
    State.reset.life ≠ .run ∧ (Event.stopReq 0).isStart = false := by decide
theorem witness_FailEndsSessionAtOnce : hunt.life = .run := by decide
theorem witness_StopIsImmediateInHuntElseRemembered :
    hunt.life = .run ∧ hunt.phase = .hunt ∧ (pay 18 []).life = .run ∧ (pay 18 []).phase ≠ .hunt := by decide
/-! A state that meets R38 in each phase. -/

theorem witness_inv_hunt : Inv hunt :=
  ⟨⟨by decide, by decide, RateWf.nil, nofun⟩, fun _ =>
    ⟨⟨by decide, by decide, by decide, by decide, by decide, by decide, by decide⟩, by decide⟩⟩
theorem witness_inv_line : Inv line :=
  ⟨⟨by decide, by decide, RateWf.nil, nofun⟩, fun _ =>
    ⟨⟨by decide, by decide, by decide, by decide, by decide, by decide, by decide⟩, by decide⟩⟩
theorem witness_inv_len0 : Inv len0 :=
  ⟨⟨by decide, by decide, RateWf.nil, nofun⟩, fun _ =>
    ⟨⟨by decide, by decide, by decide, by decide, by decide, by decide, by decide⟩, by decide⟩⟩
theorem witness_inv_len1 : Inv (len1 0x12) :=
  ⟨⟨by decide, by decide, RateWf.nil, nofun⟩, fun _ =>
    ⟨⟨by decide, by decide, by decide, by decide, by decide, by decide, by decide⟩, by decide⟩⟩
theorem witness_inv_payload : Inv (pay 18 [0xAA]) :=
  ⟨⟨by decide, by decide, RateWf.nil, nofun⟩, fun _ =>
    ⟨⟨by decide, by decide, by decide, by decide, by decide, by decide, by decide⟩, by decide⟩⟩
theorem witness_inv_check : Inv (chk p1) :=
  ⟨⟨by decide, by decide, RateWf.nil, nofun⟩, fun _ =>
    ⟨⟨by decide, by decide, by decide, by decide, by decide, by decide, by decide⟩, by decide⟩⟩
theorem witness_inv_skip : Inv (skip 15 16) :=
  ⟨⟨by decide, by decide, RateWf.nil, nofun⟩, fun _ =>
    ⟨⟨by decide, by decide, by decide, by decide, by decide, by decide, by decide⟩, by decide⟩⟩
theorem witness_inv_off : Inv State.reset ∧ State.reset.life ≠ .run :=
  ⟨⟨⟨by decide, by decide, RateWf.nil, nofun⟩, nofun⟩, nofun⟩
theorem witness_HuntTestsMarkerThenTerminator :
    hunt.life = .run ∧ hunt.phase = .hunt ∧ (0xA5 : Byte) = hunt.cfg.marker ∧
      (0x0A : Byte) = (withMarker 0x0A hunt).cfg.marker ∧ (0x62 : Byte) ≠ hunt.cfg.marker ∧ (0x62 : Byte) ≠ 0x0A ∧
      (0x0A : Byte) ≠ hunt.cfg.marker := by decide
theorem witness_LineGrowsUntilTerminatorOrTimeout : line.life = .run ∧ line.phase = .line := by decide
theorem witness_TimeoutEndsAttemptInEveryPhase :
    (hunt.life = .run ∧ hunt.phase = .hunt) ∧ (line.life = .run ∧ line.phase = .line) ∧ (len0.life = .run ∧ len0.phase = .len0) ∧
      ((len1 1).life = .run ∧ (len1 1).phase = .len1) ∧ ((pay 18 []).life = .run ∧ (pay 18 []).phase = .payload) ∧
      ((chk p1).life = .run ∧ (chk p1).phase = .check) ∧ ((skip 15 1).life = .run ∧ (skip 15 1).phase = .skip) := by
  decide
theorem witness_LowLengthByteIsStored : len0.life = .run ∧ len0.phase = .len0 := by decide
theorem witness_HighLengthByteInBoundsOpensPayload :
    (len1 16).life = .run ∧ (len1 16).phase = .len1 ∧ (len1 16).cfg.minPayload.toNat ≤ 16 ∧
      16 = (len1 16).len.toNat % 256 + 256 * (0 : Byte).toNat ∧ 512 ≤ (len1 0).cfg.maxPayload.toNat ∧
      512 = (len1 0).len.toNat % 256 + 256 * (2 : Byte).toNat := by decide
theorem witness_HighLengthByteOutOfBoundsOpensSkip :
    (len1 15).life = .run ∧ (len1 15).phase = .len1 ∧ 15 < (len1 15).cfg.minPayload.toNat ∧ 
      15 = (len1 15).len.toNat % 256 + 256 * (0 : Byte).toNat ∧ (len1 1).cfg.maxPayload.toNat < 513 ∧ 513 = (len1 1).len.toNat % 256 + 256 * (2 : Byte).toNat := by decide
theorem witness_PayloadByteIsStoredAtCount :
    (pay 18 [0xAA]).life = .run ∧ (pay 18 [0xAA]).phase = .payload ∧
      ({ pay 512 [] with cnt := 511 } : State).cnt.toNat < cfgA.maxPayload.toNat ∧ (pay 18 [0xAA]).pbuf.wf := by decide
theorem witness_SkipDiscardsOneByte :
    (skip 0 1).life = .run ∧ (skip 0 1).phase = .skip ∧ 1 ≤ (skip 0 1).cnt.toNat ∧ 1 ≤ (skip 1 2).cnt.toNat := by decide
theorem witness_EndAttemptClearsFlushesThenStops :
    (((1000 : Time).toNat : Int) - (hunt.lastFlush.toNat : Int) ≥ (hunt.cfg.rateWindowMs : Int)) ∧
      (((999 : Time).toNat : Int) - (hunt.lastFlush.toNat : Int) < (hunt.cfg.rateWindowMs : Int)) := by decide
theorem witness_BufferBreachesFault :
    cfgA.maxPayload.toNat ≤ ({ pay 512 [] with cnt := 512 } : State).cnt.toNat ∧
      (pay 1 []).cnt.toNat < (pay 1 []).len.toNat ∧
      ({ pay 1 [] with cnt := 1 } : State).len.toNat ≤ ({ pay 1 [] with cnt := 1 } : State).cnt.toNat ∧
      (pay 1 []).pbuf.cell 0 = none ∧ (skip 0 0).cnt.toNat = 0 := by decide
theorem witness_DecodeReturnsFirstErrorOrRecord :
    2 = (p1.getD 14 0).toNat + 256 * (p1.getD 15 0).toNat ∧ xor8 p1 ≠ 0x06 ∧ (p1.take 15).length ≤ 15 ∧
      xor8 (p1.take 15) = 0xF8 ∧ xor8 (p1.take 17) = 0xFD ∧ 16 ≤ (p1.take 17).length ∧ (p1.take 17).length < 16 + 2 ∧
      xor8 p1 = 0x07 ∧ 16 + 2 ≤ p1.length ∧ p1[16 + 0]? = some 0x05 ∧ (0x05 : Byte).toNat < 128 ∧
      p1[16 + 1]? = some 0xFA ∧ 128 ≤ (0xFA : Byte).toNat := by decide
theorem witness_FunctionsReturnTheirResult :
    (∃ e ∈ hunt.cfg.allow, e.valid = true ∧ e.id = srcA) ∧
      ¬ ∃ e ∈ hunt.cfg.allow, e.valid = true ∧ e.id = srcB := by decide
theorem witness_ChecksumByteJudgesFrame_accepted :
    (chk p1).life = .run ∧ (chk p1).phase = .check ∧ (chk p1).cnt.toNat = (chk p1).len.toNat ∧
      (chk p1).pbuf.gather 0 (chk p1).len.toNat = some p1 ∧
      decodeFrame p1 0x07 5 = .ok (rec1 5) ∧ ∃ e ∈ (chk p1).cfg.allow, e.valid = true ∧ e.id = (rec1 5).source := by
  decide
theorem witness_ChecksumByteJudgesFrame_foreign :
    decodeFrame (p1.set 5 0xFE) 0x06 5 = .ok { rec1 5 with source := 0xAABBCCDDEEFE } ∧
      (chk (p1.set 5 0xFE)).cnt.toNat = 18 ∧ (chk (p1.set 5 0xFE)).len.toNat = 18 ∧
      (chk (p1.set 5 0xFE)).pbuf.gather 0 18 = some (p1.set 5 0xFE) ∧
      ¬ ∃ e ∈ (chk p1).cfg.allow, e.valid = true ∧ e.id = 0xAABBCCDDEEFE := by decide
theorem witness_ChecksumByteJudgesFrame_undecodable :
    (chk p1).cnt.toNat = (chk p1).len.toNat ∧ (chk p1).pbuf.gather 0 (chk p1).len.toNat = some p1 ∧
      decodeFrame p1 0xF8 5 = .error (.checksumMismatch 0x07 0xF8) ∧ decodeFrame [1, 2, 4] 7 5 = .error .headerError ∧
      decodeFrame (p1.set 14 3) 0x06 5 = .error .payloadLengthError := by decide
theorem witness_SingleBitFlipIsDetected : decodeFrame p1 0x07 5 = .ok (rec1 5) ∧ p1[0]? = some 0xAA := by decide
/-- V4: bit 4 flipped in two bytes is not detected. -/
theorem witness_UndetectedIffEvenFlipsPerBit :
    p1.length = ((p1.set 0 0xBA).set 1 0xAB).length ∧ xor8 p1 = 0x07 ∧ xor8 ((p1.set 0 0xBA).set 1 0xAB) = 0x07 := by
  decide
theorem witness_rates : RateWf [(srcB, (1 : Count)), (srcA, 3)] := ⟨by simp [SortedBy, srcA, srcB], by simp⟩
/-- With `witness_rates`: both sides of the flush condition. -/
theorem witness_FlushReportsNonZeroCountsAndClears :
    (((1000 : Time).toNat : Int) - (hunt.lastFlush.toNat : Int) ≥ (hunt.cfg.rateWindowMs : Int)) ∧
      (((999 : Time).toNat : Int) - (hunt.lastFlush.toNat : Int) < (hunt.cfg.rateWindowMs : Int)) := by decide
theorem witness_WindowReportsExactCount :
    RateWf [(srcB, (1 : Count))] ∧ rateOf [(srcB, (1 : Count))] srcA = 0 ∧ flushDue 1000 0 1000 = true ∧
      flushDue 2000 1000 1000 = true := ⟨⟨by simp [SortedBy], by simp⟩, by decide, by decide, by decide⟩
/-- V8's shape: a record, its window's snapshot; then a window with none. -/
theorem witness_WindowReportsExactCount_run :
    RateWf hunt.rate ∧ rateOf hunt.rate srcA = 0 ∧ (Event.timeout 0).isStart = false ∧
      field State.out (runEvents [.byte 0x07 5, .timeout 1000, .timeout 2000] (chk p1)) =
        some ([] ++ [.frameAccepted, .record (rec1 5), .noData] ++ .rateSnapshot 1000 [(srcA, 1)] ::
          [.noData, .rateSnapshot 2000 []]) ∧
      [.frameAccepted, .record (rec1 5), .noData].countP (Output.isRecordOf srcA) = 1 ∧
      Output.noData.isSnapshot = false :=
  ⟨RateWf.nil, by decide, by decide, by decide, by decide, by decide⟩
theorem witness_DeliveredFrameIsStoredAndJudged :
    hunt.life = .run ∧ hunt.phase = .hunt ∧ hunt.cfg.minPayload.toNat ≤ (p1.take 16).length ∧ p1.length ≤ hunt.cfg.maxPayload.toNat := by decide
theorem witness_ConformingFrameYieldsOneRecord :
    hunt.life = .run ∧ hunt.phase = .hunt ∧ ([] : List Int).all isI8 = true ∧ [-128, (127 : Int)].all isI8 = true ∧
      hunt.cfg.minPayload.toNat ≤ 16 + 0 ∧ 16 + 2 ≤ hunt.cfg.maxPayload.toNat ∧ (∃ e ∈ hunt.cfg.allow, e.valid = true ∧ e.id = srcA) ∧
      (List.replicate 21 (0 : Time)).length = [-128, (127 : Int)].length + 19 := by decide
theorem witness_DeliveredPayloadFillsBuffer :
    (pay 18 []).life = .run ∧ (pay 18 []).phase = .payload ∧ (pay 18 []).cnt = 0 ∧
      (pay 18 []).xorAcc = 0 ∧ (pay 18 []).len.toNat = 16 + [5, (-6 : Int)].length ∧
      (pay 18 []).len.toNat ≤ (pay 18 []).cfg.maxPayload.toNat := by decide
theorem witness_DeliveredTextLineIsSurfaced :
    hunt.life = .run ∧ hunt.phase = .hunt ∧ (0x61 : Byte) ≠ hunt.cfg.marker ∧ (0x0A : Byte) ∉ [(0x62 : Byte)] ∧
      (0x0A : Byte) ≠ hunt.cfg.marker := by decide
theorem witness_FrameAfterEndedLineIsRecovered :
    hunt.life = .run ∧ hunt.phase = .hunt ∧ hunt.stopPending = false ∧
      flushDue 999 hunt.lastFlush hunt.cfg.rateWindowMs = false ∧ (0x0A : Byte) ≠ hunt.cfg.marker ∧
      [5, (-6 : Int)].all isI8 = true ∧ hunt.cfg.minPayload.toNat ≤ 16 + 2 ∧ 16 + 2 ≤ hunt.cfg.maxPayload.toNat ∧
      ∃ e ∈ hunt.cfg.allow, e.valid = true ∧ e.id = srcA := by decide
/-- F1 holds no `0x0A`. -/
theorem witness_OpenLineSwallowsFrame :
    line.life = .run ∧ line.phase = .line ∧ (0x0A : Byte) ∉ frameBytes line.cfg.marker p1 0x07 := by decide
theorem witness_HonestOutOfBoundsFrameIsSkippedWhole :
    hunt.life = .run ∧ hunt.phase = .hunt ∧ (p1.take 15).length < hunt.cfg.minPayload.toNat ∧
      ({ cfgA with maxPayload := 17 } : Config).maxPayload.toNat < p1.length := by decide
theorem witness_SkipDiscardsUnexaminedBytes :
    (skip 2 3).life = .run ∧ (skip 2 3).phase = .skip ∧ ([1, 2] : List Byte).length < (skip 2 3).cnt.toNat ∧
      ([1, 2] : List Byte).length = (skip 1 2).cnt.toNat := by decide
/-- With `witness_inv_check`: a step from a state that meets R38. -/
theorem witness_step :
    field State.out (step (given (chk p1) (.byte 0x07 5))) = some [.frameAccepted, .record (rec1 5)] := by decide
theorem witness_SnapshotOnlyAtDueAttemptEnd :
    field State.out (step (given hunt (.timeout 1000))) = some [.noData, .rateSnapshot 1000 []] := by decide
theorem witness_LifeChangesOnlyAsListed :
    field State.life (step (given State.reset (.start cfgA 0))) = some .run ∧
      field State.life (step (given hunt (.fail 0))) = some .failed ∧
      field State.life (step (given hunt (.stopReq 0))) = some .stopped ∧
      field State.life (step (given { len0 with stopPending := true } (.timeout 0))) = some .stopped := by decide
theorem witness_EndedSessionIsAbsorbing :
    SessionOver { hunt with life := .stopped } ∧ SessionOver { hunt with life := .failed } ∧
      (Event.byte 0 0).isStart = false := by decide
theorem witness_ConfigurationIsConstantInSession :
    field State.cfg (step (given hunt (.start Config.default 0))) = some Config.default ∧
      field State.cfg (step (given hunt (.byte 1 0))) = some cfgA := by decide
theorem witness_MarkerRecognisedOnlyInHunt :
    field State.phase (step (given hunt (.byte 0xA5 0))) = some .len0 ∧ hunt.phase ≠ .len0 := by decide
theorem witness_TimeoutReturnsToHunt :
    (given { line with stopPending := true } (.timeout 0)).stopPending = true ∧
      (given line (.timeout 0)).life = .run ∧ (given line (.timeout 0)).stopPending = false ∧
      (given line (.timeout 0)).input = [.timeout 0] := by decide
theorem witness_TruncationReportedOnlyByTimeoutInFrame :
    field State.out (step (given len0 (.timeout 0))) = some [.frameDropped .truncatedFrame] ∧
      field State.out (step (given line (.timeout 0))) = some [.desync [0x61, 0x62] false] := by decide
theorem witness_MeterStateChangesOnlyByItsOperations :
    field (fun t => (t.rate, t.lastFlush)) (step (given (chk p1) (.byte 0x07 5))) = some ([(srcA, 1)], 0) ∧
      field (fun t => (t.rate, t.lastFlush)) (step (given (chk p1) (.byte 0x07 1000))) = some ([], 1000) ∧
      field State.lastFlush (step (given hunt (.start cfgA 7))) = some 7 := by decide
theorem witness_BufferWrittenOnlyByPayloadByteAndStart :
    field (fun t => t.pbuf.cell 1) (step (given (pay 18 [0xAA]) (.byte 0xBB 0))) = some (some 0xBB) ∧
      field (fun t => t.pbuf.cell 0) (step (given (pay 18 [0xAA]) (.start cfgA 0))) = some none := by decide
theorem witness_RejectCountFollowsReports :
    field State.rejCount (step (given { chk (p1.set 5 0xFE) with rejCount := 0xFFFFFFFF } (.byte 0x06 0))) =
        some 0xFFFFFFFF ∧
      field State.rejCount (step (given (chk (p1.set 5 0xFE)) (.byte 0x06 0))) = some 1 ∧
      field State.rejCount (step (given (chk p1) (.byte 0x07 0))) = some 0 := by decide
theorem witness_LastFlushNeverAheadOfClock :
    hunt.lastFlush.toNat ≤ (500 : Time).toNat ∧ clockMonotone 500 [.timeout 500, .timeout 1500] = true ∧
      field State.lastFlush (runEvents [.timeout 500, .timeout 1500] hunt) = some 1500 := by decide
theorem witness_OutstandingReadFollowsPhase :
    hunt.life = .run ∧ (1 : Nat) ≤ ([0xA5] : List Byte).length ∧ ([] : List Byte).length < 1 ∧
      ([0x62, 0x0A] : List Byte).getLast? = some 0x0A ∧ ([0x0A, 0x62] : List Byte).getLast? ≠ some 0x0A ∧
      ([] : List Byte).getLast? ≠ some 0x0A := by decide
/-- With `witness_step`: a step that reports an error of R200, one that reports none. -/
theorem witness_OutputsHaveChannelsAndCodes :
    field State.out (step (given (chk p1) (.byte 0xF8 5))) = some [.frameDropped (.checksumMismatch 0x07 0xF8)] ∧
      Output.frameAccepted.errorName = none := by decide

/-- R88's renderings: `aa:bb:cc:dd:ee:ff`, `[5, -6]`. -/
theorem test_render_rows :
    renderSource 0xAABBCCDDEEFF = "aa:bb:cc:dd:ee:ff".toList ∧ renderSamples [5, -6] = "[5, -6]".toList := by decide

end Sys2Proof.Tests
end

section
/-! SUPPORT. The selection by the operation table, read off the selector key (30_encoding R90, R91): the operations that
agree with the key, in the table's order, and the one selected under each of the six tests. -/

namespace Sys2Proof.Machine

/-! ### The operations that agree with a key -/

/-- The operations whose match and mask agree with `key`, each with its condition, in the table's order (R91). -/
def candidates (key : Key) : List (OpName × Cond) :=
  (opTable.filter (fun r => key &&& r.mask == r.pattern)).map (fun r => (r.op, r.cond))

/-- Selection takes the first operation among those that agree with the key whose condition holds. -/
theorem selectRow_eq_find?_candidates (ctx : SelCtx) (key : Key) (b : Byte) :
    selectRow ctx key b = ((candidates key).find? (fun c => c.2.holds ctx b)).map Prod.fst := by
  simp only [candidates, List.find?_map, List.find?_filter, Option.map_map, Bool.decide_and, Bool.decide_eq_true]
  rfl

/-- The first candidate of the event's key whose condition holds is the operation selected. -/
theorem operation_of_find? {s : State} {e : Event} {c : OpName × Cond}
    (h : (candidates (keyOf s.life s.phase e)).find? (fun d => d.2.holds s.selCtx e.data) = some c) :
    s.operation e = c.1.build e := by
  rw [State.operation, select, selectRow_eq_find?_candidates, h]
  rfl

/-- Where the first candidate has no condition, it is the operation selected. -/
theorem operation_of_unconditional {s : State} {e : Event} {o : OpName}
    (h : (candidates (keyOf s.life s.phase e)).head? = some (o, .none)) : s.operation e = o.build e := by
  obtain ⟨rest, hcons⟩ := List.head?_eq_some_iff.mp h
  exact operation_of_find? (c := (o, .none)) (by rw [hcons]; rfl)

/-! ### The candidates of a key, by its life bit, phase and event kind

A key holds the event's kind alone, so each list is computed at one event of that kind. -/

/-- START agrees with every key of its kind, and no row stands before it. -/
theorem head?_candidates_start (l : Life) (p : Phase) (cfg : Config) (now : Time) :
    (candidates (keyOf l p (.start cfg now))).head? = some (.start, .none) := by
  have hkey : ∀ r : BitVec 1, (candidates (r ++ p.code ++ (0 : BitVec 3))).head? = some (.start, .none) := by
    cases p <;> decide
  exact hkey _

/-- Outside a session NOP.IDLE alone agrees with the key of an event that is no START. -/
theorem candidates_of_life_ne_run {l : Life} (hl : l ≠ .run) (p : Phase) {e : Event} (he : e.isStart = false) :
    candidates (keyOf l p e) = [(.nopIdle, .none)] := by
  have hkey : ∀ k : BitVec 3, k ≠ 0 → candidates ((0 : BitVec 1) ++ p.code ++ k) = [(.nopIdle, .none)] := by
    cases p <;> decide
  have hkind : e.kind ≠ 0 := by
    cases e with
    | start cfg now => cases he
    | byte b now | timeout now | stopReq now | fail now => simp [Event.kind]
  rw [keyOf, if_neg hl]
  exact hkey _ hkind

theorem candidates_fail (p : Phase) (now : Time) : candidates (keyOf .run p (.fail now)) = [(.fail, .none)] := by
  change candidates (keyOf .run p (.fail 0)) = _
  cases p <;> rfl

/-- STOP.NOW and STOP.PEND both agree with the key in HUNT, in this order; elsewhere STOP.PEND alone. -/
theorem candidates_stopReq (p : Phase) (now : Time) :
    candidates (keyOf .run p (.stopReq now)) =
      (if p = .hunt then [(.stopNow, .none)] else []) ++ [(.stopPend, .none)] := by
  change candidates (keyOf .run p (.stopReq 0)) = _
  cases p <;> rfl

/-- The operation of the `TIMEOUT` row of a phase (R82). -/
def timeoutName : Phase → OpName
  | .hunt => .huntTimeout
  | .line => .lineTimeout
  | .len0 => .len0Timeout
  | .len1 => .len1Timeout
  | .payload => .payTimeout
  | .check => .chkTimeout
  | .skip => .skipTimeout

theorem candidates_timeout (p : Phase) (now : Time) :
    candidates (keyOf .run p (.timeout now)) = [(timeoutName p, .none)] := by
  change candidates (keyOf .run p (.timeout 0)) = _
  cases p <;> rfl

/-- The operations of the `BYTE` rows of a phase, with their conditions (R82). -/
def byteCandidates : Phase → List (OpName × Cond)
  | .hunt => [(.huntMarker, .isMarker), (.huntEol, .isEol), (.huntText, .isText)]
  | .line => [(.lineEol, .isTerm), (.lineText, .notTerm)]
  | .len0 => [(.lenLo, .none)]
  | .len1 => [(.lenHi, .inBounds), (.lenHiOob, .outOfBounds)]
  | .payload => [(.payByte, .none)]
  | .check => [(.chkByte, .none)]
  | .skip => [(.skipByte, .none)]

theorem candidates_byte (p : Phase) (b : Byte) (now : Time) :
    candidates (keyOf .run p (.byte b now)) = byteCandidates p := by
  change candidates (keyOf .run p (.byte 0 0)) = _
  cases p <;> rfl

/-! ### The operation selected under each test of R90 -/

/-- Test 1: START is selected in every `life` and `phase`. -/
theorem operation_start (s : State) (cfg : Config) (now : Time) :
    s.operation (.start cfg now) = some (.start cfg now) :=
  operation_of_unconditional (head?_candidates_start s.life s.phase cfg now)

/-- Test 2: outside a session every other event selects NOP.IDLE. -/
theorem operation_of_life_ne_run {s : State} (hl : s.life ≠ .run) {e : Event} (he : e.isStart = false) :
    s.operation e = some (.nopIdle e) := by
  rw [operation_of_unconditional (congrArg List.head? (candidates_of_life_ne_run hl s.phase he))]
  cases e with
  | start cfg now => cases he
  | byte b now | timeout now | stopReq now | fail now => rfl

/-- Test 3: in a session FAIL selects its operation in every phase. -/
theorem operation_fail {s : State} (hl : s.life = .run) (now : Time) : s.operation (.fail now) = some (.fail now) :=
  operation_of_unconditional (o := .fail) (by rw [hl, candidates_fail]; rfl)

/-- Test 4: in a session a STOP_REQ is immediate in HUNT and else remembered. -/
theorem operation_stopReq {s : State} (hl : s.life = .run) (now : Time) :
    s.operation (.stopReq now) = some (if s.phase = .hunt then .stopNow now else .stopPend now) := by
  by_cases hp : s.phase = .hunt
  · rw [operation_of_unconditional (o := .stopNow) (by rw [hl, candidates_stopReq, if_pos hp]; rfl), if_pos hp]
    rfl
  · rw [operation_of_unconditional (o := .stopPend) (by rw [hl, candidates_stopReq, if_neg hp]; rfl), if_neg hp]
    rfl

/-- Test 5: in a session a TIMEOUT selects the `TIMEOUT` row of the phase. -/
theorem operation_timeout {s : State} (hl : s.life = .run) (now : Time) :
    s.operation (.timeout now) = some (timeoutOperation s now) := by
  rw [operation_of_unconditional (o := timeoutName s.phase) (by rw [hl, candidates_timeout]; rfl), timeoutOperation]
  cases s.phase <;> rfl

@[simp] theorem selCtx_marker (s : State) : s.selCtx.marker = s.cfg.marker := rfl

/-- The comparator of LEN.HI in a state is R108's comparison of the declared length with the latched bounds. -/
@[simp] theorem lenInBounds_selCtx (s : State) (b : Byte) :
    lenInBounds s.selCtx.minPayload s.selCtx.maxPayload (lenOf s.selCtx.lenLo b) =
      decide (s.cfg.minPayload.toNat ≤ (s.declaredLen b).toNat ∧
        (s.declaredLen b).toNat ≤ s.cfg.maxPayload.toNat) := rfl

/-- Test 6: in a session a BYTE selects the `BYTE` row of the phase whose condition it meets. -/
theorem operation_byte {s : State} (hl : s.life = .run) (b : Byte) (now : Time) :
    s.operation (.byte b now) = some (byteOperation s b now) := by
  have hfind : ∀ c, (byteCandidates s.phase).find? (fun d => d.2.holds s.selCtx b) = some c →
      s.operation (.byte b now) = c.1.build (.byte b now) := fun c h =>
    operation_of_find? (by rw [hl, candidates_byte]; exact h)
  unfold byteOperation
  cases hp : s.phase with
  | len0 | payload | check | skip => exact hfind _ (by rw [hp]; rfl)
  | hunt =>
    dsimp only
    split_ifs with hm ht
    · exact hfind (.huntMarker, .isMarker) (by simp [hp, byteCandidates, Cond.holds, hm])
    · exact hfind (.huntEol, .isEol) (by simp_all [byteCandidates, Cond.holds])
    · exact hfind (.huntText, .isText) (by simp_all [byteCandidates, Cond.holds])
  | line =>
    dsimp only
    split_ifs with ht
    · exact hfind (.lineEol, .isTerm) (by simp [hp, byteCandidates, Cond.holds, ht])
    · exact hfind (.lineText, .notTerm) (by simp_all [byteCandidates, Cond.holds])
  | len1 =>
    dsimp only
    split_ifs with hL
    · exact hfind (.lenHi, .inBounds) (by simp [hp, byteCandidates, Cond.holds, hL])
    · exact hfind (.lenHiOob, .outOfBounds) (by simp [hp, byteCandidates, Cond.holds, hL])

/-- The six tests in order. -/
theorem operation_eq_operationOf (s : State) (e : Event) : s.operation e = some (operationOf s e) := by
  by_cases hl : s.life = .run
  · cases e with
    | start cfg now => exact operation_start s cfg now
    | fail now => simp [operation_fail hl, operationOf, hl]
    | stopReq now => simp [operation_stopReq hl, operationOf, hl]
    | timeout now => simp [operation_timeout hl, operationOf, hl]
    | byte b now => simp [operation_byte hl, operationOf, hl]
  · cases e with
    | start cfg now => exact operation_start s cfg now
    | fail now | stopReq now | timeout now | byte b now =>
      rw [operation_of_life_ne_run hl rfl, operationOf, if_pos hl]

/-! ### The operation selected is well formed -/

theorem timeoutOperation_wellFormed (s : State) (ctx : SelCtx) (now : Time) :
    (timeoutOperation s now).wellFormed ctx = true := by
  unfold timeoutOperation
  cases s.phase <;> rfl

/-- The byte of a `BYTE` row meets the row's condition: the tests before it have excluded the rows before it. -/
theorem byteOperation_wellFormed (s : State) (b : Byte) (now : Time) :
    (byteOperation s b now).wellFormed s.selCtx = true := by
  unfold byteOperation
  cases s.phase with
  | len0 | payload | check | skip => rfl
  | hunt => dsimp only; split_ifs <;> simp_all [Instr.wellFormed]
  | line => dsimp only; split_ifs <;> simp_all [Instr.wellFormed]
  | len1 => dsimp only; split_ifs with hL <;> simp [Instr.wellFormed, hL]

theorem operationOf_wellFormed (s : State) (e : Event) : (operationOf s e).wellFormed s.selCtx = true := by
  cases e with
  | start cfg now => rfl
  | fail now => dsimp only [operationOf]; split_ifs <;> rfl
  | stopReq now => dsimp only [operationOf]; split_ifs <;> rfl
  | timeout now =>
    dsimp only [operationOf]
    split_ifs
    · rfl
    · exact timeoutOperation_wellFormed s s.selCtx now
  | byte b now =>
    dsimp only [operationOf]
    split_ifs
    · rfl
    · exact byteOperation_wellFormed s b now

/-- Settles O6: the operation selected under each of the six tests, and the condition its byte meets. -/
theorem tableSelectsOperationOfSixTests : Obligations.TableSelectsOperationOfSixTests :=
  fun s e => ⟨operation_eq_operationOf s e, operationOf_wellFormed s e⟩

end Sys2Proof.Machine
end

section
/-! SUPPORT. The Frame Scanner's operations (40_scanner): the one an event selects in each phase of a session, and the
next state of each in any state that executes it. -/

namespace Sys2Proof.Machine

/-! ### The operation selected in a phase -/

/-- A TIMEOUT selects the `TIMEOUT` row of the phase. -/
theorem operation_timeout_of_phase {s : State} {p : Phase} (hl : s.life = .run) (hp : s.phase = p) (now : Time) :
    s.operation (.timeout now) = (timeoutName p).build (.timeout now) :=
  operation_of_unconditional (by rw [hl, hp, candidates_timeout]; rfl)

/-- Where a phase has one `BYTE` row, any byte selects it. -/
theorem operation_byte_of_single {s : State} {p : Phase} {o : OpName} (hl : s.life = .run) (hp : s.phase = p)
    (b : Byte) (now : Time) (ho : byteCandidates p = [(o, .none)]) :
    s.operation (.byte b now) = o.build (.byte b now) :=
  operation_of_unconditional (by rw [hl, hp, candidates_byte, ho]; rfl)

theorem operation_byte_of_hunt {s : State} (hl : s.life = .run) (hp : s.phase = .hunt) (b : Byte) (now : Time) :
    s.operation (.byte b now) =
      some (if b = s.cfg.marker then .huntMarker b now
        else if b = lineTerm then .huntEol b now else .huntText b now) := by
  rw [operation_byte hl, byteOperation, hp]

theorem operation_byte_of_line {s : State} (hl : s.life = .run) (hp : s.phase = .line) (b : Byte) (now : Time) :
    s.operation (.byte b now) = some (if b = lineTerm then .lineEol b now else .lineText b now) := by
  rw [operation_byte hl, byteOperation, hp]

theorem operation_byte_of_len1 {s : State} (hl : s.life = .run) (hp : s.phase = .len1) (b : Byte) (now : Time) :
    s.operation (.byte b now) =
      some (if s.cfg.minPayload.toNat ≤ (s.declaredLen b).toNat ∧
          (s.declaredLen b).toNat ≤ s.cfg.maxPayload.toNat then .lenHi b now else .lenHiOob b now) := by
  rw [operation_byte hl, byteOperation, hp]

/-! ### The declared length as a number (R108) -/

theorem declaredLen_toNat (s : State) (b : Byte) : (s.declaredLen b).toNat = s.len.toNat % 256 + 256 * b.toNat := by
  rw [State.declaredLen, lenOf_eq, State.lenLo, BitVec.extractLsb'_toNat]
  rfl

theorem declaredLen_eq_ofNat {s : State} {b : Byte} {L : Nat} (hL : L = s.len.toNat % 256 + 256 * b.toNat) :
    s.declaredLen b = BitVec.ofNat 16 L := by
  rw [hL, ← declaredLen_toNat, BitVec.ofNat_toNat, BitVec.setWidth_eq]

/-! ### Operations that end the attempt -/

theorem endAttempt_eq_afterAttempt (now : Time) (s : State) : endAttempt now s = afterAttempt now [] s := by
  rw [endAttempt_eq, afterAttempt, List.append_nil]

/-- `END_ATTEMPT` clears `cnt` itself, whatever it held. -/
theorem endAttempt_of_cnt (now : Time) (s : State) (c : BitVec 17) :
    endAttempt now { s with cnt := c } = endAttempt now s := rfl

theorem exec_huntEol (b : Byte) (now : Time) (s : State) :
    exec (.huntEol b now) s = .next (afterAttempt now [.desync [lineTerm] true] s) :=
  congrArg Host.Outcome.next (endAttempt_emit now _ s)

theorem exec_huntTimeout (now : Time) (s : State) :
    exec (.huntTimeout now) s = .next (afterAttempt now [.noData] s) :=
  congrArg Host.Outcome.next (endAttempt_emit now _ s)

theorem exec_lineEol (b : Byte) (now : Time) (s : State) :
    exec (.lineEol b now) s = .next (afterAttempt now [.desync (s.lbuf ++ [lineTerm]) true] s) :=
  congrArg Host.Outcome.next (endAttempt_emit now _ s)

theorem exec_lineTimeout (now : Time) (s : State) :
    exec (.lineTimeout now) s = .next (afterAttempt now [.desync s.lbuf false] s) :=
  congrArg Host.Outcome.next (endAttempt_emit now _ s)

/-- What the `TIMEOUT` rows of LEN0, LEN1, PAYLOAD and CHECK all perform (R110, R111, R113, R114). -/
theorem next_raiseDrop (r : DropReason) (now : Time) (s : State) :
    (.next (raiseDrop r now s) : Result) = .next (afterAttempt now [.frameDropped r] s) :=
  congrArg Host.Outcome.next (endAttempt_emit now _ s)

theorem exec_skipTimeout (now : Time) (s : State) : exec (.skipTimeout now) s = .next (afterAttempt now [] s) :=
  congrArg Host.Outcome.next (endAttempt_eq_afterAttempt now s)

/-! ### Operations inside a frame, with their operands as numbers -/

theorem zext_eq_ofNat {w : Nat} (n : Nat) (v : BitVec w) : zext n v = BitVec.ofNat n v.toNat :=
  (BitVec.ofNat_toNat n v).symm

/-- The skip count of a 16-bit length, by its number. -/
theorem zext_add_one_eq_ofNat (l : Half) : zext 17 l + 1 = BitVec.ofNat 17 (l.toNat + 1) := by
  rw [zext_eq_ofNat, BitVec.ofNat_add]
  rfl

/-- LEN.LO (R107). -/
theorem exec_lenLo (b : Byte) (now : Time) (s : State) :
    exec (.lenLo b now) s = .next { s with len := BitVec.ofNat 16 b.toNat, phase := .len1 } := by
  change execLenLo b now s = _
  rw [execLenLo, zext_eq_ofNat]

/-- LEN.HI (R108). -/
theorem exec_lenHi {s : State} {b : Byte} {L : Nat} (now : Time) (hL : L = s.len.toNat % 256 + 256 * b.toNat) :
    exec (.lenHi b now) s =
      .next { s with len := BitVec.ofNat 16 L, cnt := 0, xorAcc := 0, phase := if 1 ≤ L then .payload else .check } := by
  have hd : (s.declaredLen b).toNat = L := by rw [hL, declaredLen_toNat]
  change execLenHi b now s = _
  rw [execLenHi, hd, declaredLen_eq_ofNat hL]

/-- LEN.HI.OOB (R109). -/
theorem exec_lenHiOob {s : State} {b : Byte} {L : Nat} (now : Time) (hL : L = s.len.toNat % 256 + 256 * b.toNat) :
    exec (.lenHiOob b now) s =
      .next { s with len := BitVec.ofNat 16 L, cnt := BitVec.ofNat 17 (L + 1), phase := .skip,
                     out := s.out ++ [.frameDropped (.lengthOutOfBounds (BitVec.ofNat 16 L))] } := by
  have hd : (s.declaredLen b).toNat = L := by rw [hL, declaredLen_toNat]
  change execLenHiOob b now s = _
  rw [execLenHiOob, zext_add_one_eq_ofNat, hd, declaredLen_eq_ofNat hL]
  rfl

/-- PAY.BYTE inside the buffer (R112): a `cnt` below a 16-bit bound does not wrap. -/
theorem exec_payByte {s : State} (b : Byte) (now : Time) (hc : s.cnt.toNat < s.cfg.maxPayload.toNat) :
    exec (.payByte b now) s =
      .next { s with pbuf := s.pbuf.set s.cnt.toNat b, xorAcc := s.xorAcc ^^^ b,
                     cnt := BitVec.ofNat 17 (s.cnt.toNat + 1),
                     phase := if s.cnt.toNat + 1 = s.len.toNat then .check else s.phase } := by
  have hmax := s.cfg.maxPayload.isLt
  have hcnt : s.cnt + 1 = BitVec.ofNat 17 (s.cnt.toNat + 1) := by
    rw [BitVec.ofNat_add, BitVec.ofNat_toNat, BitVec.setWidth_eq]
    rfl
  have hnat : (BitVec.ofNat 17 (s.cnt.toNat + 1)).toNat = s.cnt.toNat + 1 := by
    rw [BitVec.toNat_ofNat]
    omega
  change execPayByte b now s = _
  rw [execPayByte, memWrite_in_range b hc, hcnt, hnat]

/-- SKIP.BYTE with a byte left to skip (R115). -/
theorem exec_skipByte {s : State} (b : Byte) (now : Time) (hc : 1 ≤ s.cnt.toNat) :
    exec (.skipByte b now) s =
      .next (if s.cnt.toNat = 1 then afterAttempt now [] s else { s with cnt := BitVec.ofNat 17 (s.cnt.toNat - 1) }) := by
  have h0 : s.cnt ≠ 0 := fun h => by simp [h] at hc
  change execSkipByte b now s = _
  rw [execSkipByte, if_neg h0]
  by_cases h1 : s.cnt.toNat = 1
  · rw [if_pos (BitVec.eq_of_toNat_eq h1), if_pos h1, endAttempt_of_cnt, endAttempt_eq_afterAttempt]
  · have hpred : s.cnt - 1 = BitVec.ofNat 17 (s.cnt.toNat - 1) := by
      apply BitVec.eq_of_toNat_eq
      rw [BitVec.toNat_sub_of_le hc, BitVec.toNat_ofNat, Nat.mod_eq_of_lt (by omega)]
      rfl
    rw [if_neg (fun h => h1 (congrArg BitVec.toNat h)), if_neg h1, hpred]

/-! ### The flush condition and the parts of an attempt end it governs (R117, R162) -/

theorem flushDue_iff {now lastFlush : Time} {window : Nat} :
    flushDue now lastFlush window = true ↔ (now.toNat : Int) - (lastFlush.toNat : Int) ≥ (window : Int) :=
  decide_eq_true_iff

/-- An elapsed window is reported and closed. -/
theorem flush_of_due {now : Time} {s : State} (h : flushDue now s.lastFlush s.cfg.rateWindowMs = true) :
    rateAfter now s = [] ∧ lastFlushAfter now s = now ∧
      attemptOutputs now s = .rateSnapshot now (snapshot s.rate) :: stopOutputs s :=
  ⟨if_pos h, if_pos h, by rw [attemptOutputs, flushOutputs, if_pos h]; rfl⟩

/-- An open window stays as it is. -/
theorem flush_of_not_due {now : Time} {s : State} (h : flushDue now s.lastFlush s.cfg.rateWindowMs ≠ true) :
    rateAfter now s = s.rate ∧ lastFlushAfter now s = s.lastFlush ∧ attemptOutputs now s = stopOutputs s :=
  ⟨if_neg h, if_neg h, by rw [attemptOutputs, flushOutputs, if_neg h]; rfl⟩

/-! ### Reads (R122, R220, R221) -/

/-- A read that returned all it asked for becomes its BYTE events. -/
theorem readEvents_of_satisfied {size : ReadSize} {got : List Byte} (now : Time) (h : size.satisfied got = true) :
    readEvents size got now = bytesAt now got := by
  rw [readEvents, if_pos h, List.append_nil]
  rfl

/-- A read that returned fewer bytes than asked for ends with one TIMEOUT. -/
theorem readEvents_of_short {size : ReadSize} {got : List Byte} (now : Time) (h : size.satisfied got ≠ true) :
    readEvents size got now = bytesAt now got ++ [.timeout now] := by
  rw [readEvents, if_neg h]
  rfl

theorem satisfied_bytes_iff {n : Nat} {got : List Byte} : (ReadSize.bytes n).satisfied got = true ↔ n ≤ got.length :=
  decide_eq_true_iff

theorem satisfied_lineEnd_iff {got : List Byte} :
    ReadSize.lineEnd.satisfied got = true ↔ got.getLast? = some lineTerm :=
  beq_iff_eq

end Sys2Proof.Machine
end

section
/-! The obligations about the Frame Scanner and the reads it has outstanding (40_scanner, 60_exceptions R220, R221). -/

namespace Sys2Proof.Machine

/-- Settles O16: the two tests of HUNT in their order, and what each of its three `BYTE` rows does. -/
theorem huntTestsMarkerThenTerminator : Obligations.HuntTestsMarkerThenTerminator := by
  refine fun s b now => ⟨fun hl hp => ?_, rfl, rfl, exec_huntEol b now s⟩
  rw [operation_byte_of_hunt hl hp]
  exact ⟨fun hm => by rw [if_pos hm], fun hm ht => by rw [if_neg hm, if_neg ht],
    fun hm ht => by rw [if_neg hm, if_pos ht]⟩

/-- Settles O17: the one test of LINE, and what its three rows do. -/
theorem lineGrowsUntilTerminatorOrTimeout : Obligations.LineGrowsUntilTerminatorOrTimeout := fun s b now =>
  ⟨fun hl hp => ⟨operation_byte_of_line hl hp b now, operation_timeout_of_phase hl hp now⟩, rfl,
    exec_lineEol b now s, exec_lineTimeout now s⟩

/-- Settles O18: the `TIMEOUT` row of each phase, its report, and the attempt end after it. -/
theorem timeoutEndsAttemptInEveryPhase : Obligations.TimeoutEndsAttemptInEveryPhase := by
  refine fun s now => ⟨fun hl => ?_, exec_huntTimeout now s, exec_lineTimeout now s, next_raiseDrop _ now s,
    next_raiseDrop _ now s, next_raiseDrop _ now s, next_raiseDrop _ now s, exec_skipTimeout now s⟩
  have hsel : ∀ p, s.phase = p → s.operation (.timeout now) = (timeoutName p).build (.timeout now) :=
    fun _ hp => operation_timeout_of_phase hl hp now
  exact ⟨hsel .hunt, hsel .line, hsel .len0, hsel .len1, hsel .payload, hsel .check, hsel .skip⟩

/-- Settles O19: LEN0 has one `BYTE` row, which stores the byte zero-extended. -/
theorem lowLengthByteIsStored : Obligations.LowLengthByteIsStored := fun s b now =>
  ⟨fun hl hp => operation_byte_of_single hl hp b now rfl, exec_lenLo b now s⟩

/-- Settles O20: the declared length as the number `L`, within the bounds. -/
theorem highLengthByteInBoundsOpensPayload : Obligations.HighLengthByteInBoundsOpensPayload := by
  refine fun s b now L hL => ⟨fun hl hp hmin hmax => ?_, exec_lenHi now hL⟩
  rw [operation_byte_of_len1 hl hp, declaredLen_toNat, ← hL, if_pos ⟨hmin, hmax⟩]

/-- Settles O21: the declared length as the number `L`, out of bounds; `L + 1` is below `2 ^ 17`. -/
theorem highLengthByteOutOfBoundsOpensSkip : Obligations.HighLengthByteOutOfBoundsOpensSkip := by
  refine fun s b now L hL => ⟨fun hl hp hout => ?_, ?_, exec_lenHiOob now hL⟩
  · rw [operation_byte_of_len1 hl hp, declaredLen_toNat, ← hL, if_neg (by omega)]
  · have hb := b.isLt
    rw [BitVec.toNat_ofNat]
    omega

/-- Settles O22: PAYLOAD has one `BYTE` row; it writes the cell at `cnt` and no other. -/
theorem payloadByteIsStoredAtCount : Obligations.PayloadByteIsStoredAtCount := fun s b now =>
  ⟨fun hl hp => operation_byte_of_single hl hp b now rfl, fun hc =>
    ⟨s.pbuf.set s.cnt.toNat b, exec_payByte b now hc, Memory.cell_set_same .., fun _ ha => Memory.cell_set_other ha,
      fun hw => hw.set _ b⟩⟩

/-- Settles O23: SKIP has one `BYTE` row; it counts down, and the last byte ends the attempt. -/
theorem skipDiscardsOneByte : Obligations.SkipDiscardsOneByte := fun _ b now =>
  ⟨fun hl hp => operation_byte_of_single hl hp b now rfl, exec_skipByte b now⟩

/-- Settles O24: the rate, the last flush, the life and the outputs of `END_ATTEMPT`, by the flush condition. -/
theorem endAttemptClearsFlushesThenStops : Obligations.EndAttemptClearsFlushesThenStops := by
  refine fun s now => ⟨rateAfter now s, lastFlushAfter now s, lifeAfter s, s.out ++ attemptOutputs now s,
    congrArg Host.Outcome.next (endAttempt_eq now s), fun hdue => ?_, fun hopen => ?_, rfl⟩
  · obtain ⟨hrate, hlast, hout⟩ := flush_of_due (flushDue_iff.mpr hdue)
    exact ⟨hrate, hlast, by rw [hout, List.append_assoc]; rfl⟩
  · obtain ⟨hrate, hlast, hout⟩ := flush_of_not_due (mt flushDue_iff.mp (not_le.mpr hopen))
    exact ⟨hrate, hlast, by rw [hout]; rfl⟩

/-- Settles O59: the read outstanding by the phase, and a read's events by whether it returned all it asked for. -/
theorem outstandingReadFollowsPhase : Obligations.OutstandingReadFollowsPhase := by
  refine ⟨fun s hl => ⟨_, if_pos hl, rfl, ?_⟩, fun n got now => ⟨?_, ?_, ?_, ?_⟩⟩
  · -- the size asked for is read off the phase
    cases hp : s.phase <;> simp
  · exact fun h => readEvents_of_satisfied now (satisfied_bytes_iff.mpr h)
  · exact fun h => readEvents_of_short now (mt satisfied_bytes_iff.mp (not_le.mpr h))
  · exact fun h => readEvents_of_satisfied now (satisfied_lineEnd_iff.mpr h)
  · exact fun h => readEvents_of_short now (mt satisfied_lineEnd_iff.mp h)

end Sys2Proof.Machine
end

section
/-! SUPPORT. The pure primitives of the Frame Decoder read at an index: the fields of a payload as arithmetic on its
bytes (20_memory R54, R55, 30_encoding R74 to R77), the branches of DECODE (41_decoder R130) and the arms of CHK.BYTE
(R136). -/

namespace Sys2Proof

/-! ### Slices and the numbers read from them -/

theorem length_slice {s : List Byte} {a b : Nat} (h : b ≤ s.length) : (slice s a b).length = b - a := by
  rw [slice, List.length_take, List.length_drop]
  omega

theorem getElem?_slice {s : List Byte} {a b i : Nat} (h : i < b - a) : (slice s a b)[i]? = s[a + i]? := by
  rw [slice, List.getElem?_take_of_lt h, List.getElem?_drop]

/-- The number a slice stands for: its byte `i` weighs `2 ^ (8 i)`. -/
theorem leNat_slice {s : List Byte} {a b : Nat} (h : b ≤ s.length) :
    leNat (slice s a b) = ((List.range (b - a)).map (fun i => (s.getD (a + i) 0).toNat * 2 ^ (8 * i))).sum := by
  rw [leNat_eq_sum, length_slice h]
  congr 1
  refine List.map_congr_left fun i hi => ?_
  rw [List.getD_eq_getElem?_getD, getElem?_slice (List.mem_range.mp hi), ← List.getD_eq_getElem?_getD]

/-- A word of as many bits as the bytes have holds their number. -/
theorem toNat_ofNat_leNat {s : List Byte} {w : Nat} (h : w = 8 * s.length) :
    (BitVec.ofNat w (leNat s)).toNat = leNat s := by
  rw [BitVec.toNat_ofNat, Nat.mod_eq_of_lt]
  rw [h, Nat.pow_mul]
  exact leNat_lt s

theorem le16_toNat {s : List Byte} (h : s.length = 2) : (le16 s).toNat = leNat s := toNat_ofNat_leNat (by rw [h])

theorem le64_toNat {s : List Byte} (h : s.length = 8) : (le64 s).toNat = leNat s := toNat_ofNat_leNat (by rw [h])

theorem packSource_toNat {s : List Byte} (h : s.length = 6) : (packSource s).toNat = leNat s.reverse :=
  toNat_ofNat_leNat (by rw [List.length_reverse, h])

/-- Digit `i` of a little-endian number is its byte `i`. -/
theorem leNat_div_pow_mod (s : List Byte) (i : Nat) : leNat s / 256 ^ i % 256 = (s.getD i 0).toNat := by
  induction s generalizing i with
  | nil => simp [leNat]
  | cons b s ih =>
    have hb := b.isLt
    cases i with
    | zero =>
      rw [leNat, List.getD_cons_zero]
      omega
    | succ i =>
      have htail : (b.toNat + 256 * leNat s) / 256 = leNat s := by omega
      rw [leNat, List.getD_cons_succ, Nat.pow_succ', ← Nat.div_div_eq_div_mul, htail, ih]

/-- Byte `i` of a packed SourceId stands in bits `47 - 8 i` down to `40 - 8 i` (20_memory R55). -/
theorem getElem?_eq_packSource_extractLsb' {s : List Byte} (hs : s.length = 6) {i : Nat} (hi : i < 6) :
    s[i]? = some ((packSource s).extractLsb' (40 - 8 * i) 8) := by
  have hpow : 2 ^ (40 - 8 * i) = 256 ^ (5 - i) := by
    rw [show 40 - 8 * i = 8 * (5 - i) by omega, Nat.pow_mul]
  have hrev : s.reverse.getD (5 - i) 0 = s[i] := by
    rw [List.getD_eq_getElem _ _ (by rw [List.length_reverse]; omega), List.getElem_reverse]
    congr 1
    omega
  rw [List.getElem?_eq_getElem (by omega)]
  congr 1
  apply BitVec.eq_of_toNat_eq
  rw [BitVec.extractLsb'_toNat, packSource_toNat hs, Nat.shiftRight_eq_div_pow, hpow, leNat_div_pow_mod, hrev]

theorem s8_of_lt {b : Byte} (h : b.toNat < 128) : s8 b = (b.toNat : Int) := if_pos h

theorem s8_of_ge {b : Byte} (h : 128 ≤ b.toNat) : s8 b = (b.toNat : Int) - 256 := if_neg (not_lt.mpr h)

end Sys2Proof

namespace Sys2Proof.Machine

/-! ### The fields of a payload -/

theorem getElem?_eq_sourceField {p : List Byte} (h : 16 ≤ p.length) {i : Nat} (hi : i < 6) :
    p[i]? = some ((sourceField p).extractLsb' (40 - 8 * i) 8) := by
  rw [sourceField, ← getElem?_eq_packSource_extractLsb' (length_slice (by omega)) hi, getElem?_slice hi, Nat.zero_add]

theorem timestampField_toNat {p : List Byte} (h : 16 ≤ p.length) :
    (timestampField p).toNat = ((List.range 8).map (fun i => (p.getD (6 + i) 0).toNat * 2 ^ (8 * i))).sum := by
  rw [timestampField, le64_toNat (length_slice (by omega)), leNat_slice (by omega)]

theorem sampleCountField_toNat {p : List Byte} (h : 16 ≤ p.length) :
    (sampleCountField p).toNat = (p.getD 14 0).toNat + 256 * (p.getD 15 0).toNat := by
  rw [sampleCountField, le16_toNat (length_slice h), leNat_slice h]
  simp [List.range_succ, Nat.mul_comm]

theorem length_samplesField {p : List Byte} {n : Nat} (h : 16 + n ≤ p.length) : (samplesField p n).length = n := by
  rw [samplesField, List.length_map, length_slice h, Nat.add_sub_cancel_left]

theorem getElem?_samplesField {p : List Byte} {n k : Nat} {b : Byte} (hk : k < n) (hb : p[16 + k]? = some b) :
    (samplesField p n)[k]? = some (s8 b) := by
  rw [samplesField, List.getElem?_map, getElem?_slice (by omega), hb, Option.map_some]

/-! ### The branches of DECODE (R130) -/

theorem decodeFrame_of_xor8_ne {p : List Byte} {c : Byte} (now : Time) (hx : xor8 p ≠ c) :
    decodeFrame p c now = .error (.checksumMismatch (xor8 p) c) := if_pos hx

theorem decodeFrame_of_short {p : List Byte} {c : Byte} (now : Time) (hx : xor8 p = c) (hl : p.length < 16) :
    decodeFrame p c now = .error .headerError := by
  rw [decodeFrame, if_neg (not_not.mpr hx), if_pos hl]

theorem decodeFrame_of_missing_samples {p : List Byte} {c : Byte} (now : Time) (hx : xor8 p = c) (hl : 16 ≤ p.length)
    (hn : p.length < 16 + (sampleCountField p).toNat) : decodeFrame p c now = .error .payloadLengthError := by
  rw [decodeFrame, if_neg (not_not.mpr hx), if_neg (not_lt.mpr hl),
    if_pos (Nat.sub_lt_left_of_lt_add hl hn)]

theorem decodeFrame_of_whole {p : List Byte} {c : Byte} (now : Time) (hx : xor8 p = c)
    (hn : 16 + (sampleCountField p).toNat ≤ p.length) :
    decodeFrame p c now =
      .ok { source := sourceField p, deviceTimestamp := timestampField p, hostReceiveTimestamp := now,
            samples := samplesField p (sampleCountField p).toNat } := by
  rw [decodeFrame, if_neg (not_not.mpr hx), if_neg (not_lt.mpr (Nat.le_of_add_right_le hn)),
    if_neg (not_lt.mpr (Nat.le_sub_of_add_le' hn))]

/-! ### The arms of CHK.BYTE (R136, 42_filter R151) -/

theorem filterSource_iff {cam : List CamEntry} {src : SourceId} :
    filterSource cam src = true ↔ ∃ e ∈ cam, e.valid = true ∧ e.id = src := by
  simp [filterSource]

theorem satInc_eq_ofNat (c : Count) : satInc c = BitVec.ofNat 32 (min (c.toNat + 1) (2 ^ 32 - 1)) := by
  rw [← satInc_toNat, BitVec.ofNat_toNat, BitVec.setWidth_eq]

/-- With the whole payload written in this attempt, CHK.BYTE judges what it decodes to and ends the attempt. -/
theorem exec_chkByte {s : State} {p : List Byte} (b : Byte) (now : Time) (hc : s.cnt.toNat = s.len.toNat)
    (hp : s.pbuf.gather 0 s.len.toNat = some p) :
    exec (.chkByte b now) s = .next (endAttempt now (judge s (decodeFrame p b now))) := by
  change execChkByte b now s = _
  rw [execChkByte, memRead_written (by omega) (by omega) hp]

theorem endAttempt_judge_error (now : Time) (s : State) (e : DecodeError) :
    endAttempt now (judge s (.error e)) = afterAttempt now [.frameDropped e.reason] s :=
  endAttempt_emit now _ s

theorem endAttempt_judge_allowed {s : State} {r : Record} (now : Time) (h : filterSource s.cfg.allow r.source = true) :
    endAttempt now (judge s (.ok r)) = afterAttempt now [.frameAccepted, .record r] (meterInc r.source s) := by
  rw [judge, if_pos h, endAttempt_emit]

theorem endAttempt_judge_foreign {s : State} {r : Record} (now : Time) (h : filterSource s.cfg.allow r.source ≠ true) :
    endAttempt now (judge s (.ok r)) =
      afterAttempt now [.frameDropped (.sourceNotAllowed r.source)] { s with rejCount := satInc s.rejCount } := by
  rw [judge, if_neg h, endAttempt_emit]

end Sys2Proof.Machine
end

section
/-! The obligations about the Frame Decoder (41_decoder): DECODE and CHK.BYTE. -/

namespace Sys2Proof.Machine

/-- Settles O26: the branches of DECODE in their order, and the record's fields at each index of the payload. -/
theorem decodeReturnsFirstErrorOrRecord : Obligations.DecodeReturnsFirstErrorOrRecord := by
  intro p c now n hn
  have hcount : 16 ≤ p.length → (sampleCountField p).toNat = n := fun hl => by rw [sampleCountField_toNat hl, hn]
  refine ⟨fun k => xor8_getLsbD k p, decodeFrame_of_xor8_ne now, fun hx hl => ?_, fun hx hl hs => ?_, fun hx hl => ?_⟩
  · exact decodeFrame_of_short now hx (by omega)
  · exact decodeFrame_of_missing_samples now hx hl (by rwa [hcount hl])
  · have hhead : 16 ≤ p.length := by omega
    have hdec := decodeFrame_of_whole now hx (by rwa [hcount hhead])
    rw [hcount hhead] at hdec
    refine ⟨_, hdec, rfl, fun i hi => getElem?_eq_sourceField hhead hi, timestampField_toNat hhead,
      length_samplesField hl, fun k b hk hb => ?_⟩
    have hsample := getElem?_samplesField hk hb
    exact ⟨fun hpos => by rw [hsample, s8_of_lt hpos], fun hneg => by rw [hsample, s8_of_ge hneg]⟩

/-- Settles O29: CHECK has one `BYTE` row; its report and its writes by what the stored payload decodes to. -/
theorem checksumByteJudgesFrame : Obligations.ChecksumByteJudgesFrame := by
  refine fun s b now p => ⟨fun hl hp => operation_byte_of_single hl hp b now rfl, fun hc hp => ?_⟩
  have hexec := exec_chkByte b now hc hp
  refine ⟨fun e he => ?_, fun r hr => ⟨fun hin => ?_, fun hout => ?_⟩⟩
  · rw [hexec, he, endAttempt_judge_error]
    cases e <;> rfl
  · rw [hexec, hr, endAttempt_judge_allowed now (filterSource_iff.mpr hin)]
  · rw [hexec, hr, endAttempt_judge_foreign now (mt filterSource_iff.mp hout), satInc_eq_ofNat]

end Sys2Proof.Machine
end

section
/-! SUPPORT. A step as the reaction to the event it consumes (30_encoding R90, 44_system R181), and what leaves the
configuration unchanged (42_filter R152). -/

namespace Sys2Proof.Machine

/-! ### The operation selected does what the reaction does -/

theorem exec_byteOperation (s : State) (b : Byte) (now : Time) :
    exec (byteOperation s b now) s = reactByte b now s := by
  unfold byteOperation reactByte
  cases s.phase with
  | len0 | payload | check | skip => rfl
  | hunt | line => dsimp only; split_ifs <;> rfl
  | len1 =>
    simp only [State.lenAdmitted, lenInBounds, decide_eq_true_eq]
    split_ifs <;> rfl

theorem exec_timeoutOperation (s : State) (now : Time) :
    exec (timeoutOperation s now) s = reactTimeout now s := by
  unfold timeoutOperation reactTimeout
  cases s.phase <;> rfl

/-- The operation the six tests of R90 select does what the reaction does. -/
theorem exec_operationOf (s : State) (e : Event) : exec (operationOf s e) s = react e s := by
  by_cases hl : s.life = .run
  · have hrun : ¬ s.life ≠ .run := not_not.mpr hl
    cases e with
    | start cfg now => rfl
    | fail now => rw [operationOf, react, if_neg hrun, if_pos hl]; rfl
    | stopReq now =>
      rw [operationOf, react, if_neg hrun, if_pos hl]
      split_ifs <;> rfl
    | timeout now => rw [operationOf, react, if_neg hrun, if_pos hl, exec_timeoutOperation]
    | byte b now => rw [operationOf, react, if_neg hrun, if_pos hl, exec_byteOperation]
  · cases e with
    | start cfg now => rfl
    | fail now | stopReq now | timeout now | byte b now => rw [operationOf, react, if_pos hl, if_neg hl]; rfl

/-- A step is the reaction to the first event presented, on the state with that event taken off the input. -/
theorem step_eq_react {s : State} {e : Event} {rest : List Event} (h : s.input = e :: rest) :
    step s = react e { s with input := rest } := by
  simp only [step, h, operation_eq_operationOf, exec_operationOf]

/-! ### What leaves the configuration unchanged -/

@[simp] theorem afterAttempt_cfg (now : Time) (os : List Output) (s : State) :
    (afterAttempt now os s).cfg = s.cfg := rfl

@[simp] theorem judge_cfg (s : State) (x : Except DecodeError Record) : (judge s x).cfg = s.cfg := by
  cases x with
  | error e => rfl
  | ok r =>
    rw [judge]
    split_ifs <;> rfl

theorem cfg_eq_of_byteNext {b : Byte} {now : Time} {s t : State} (h : ByteNext b now s t) : t.cfg = s.cfg := by
  rcases h with ⟨_, _, rfl⟩ | ⟨_, _, _, rfl⟩ | ⟨_, _, _, rfl⟩ | ⟨_, _, rfl⟩ | ⟨_, _, rfl⟩ | ⟨_, rfl⟩ | ⟨_, _, rfl⟩ |
    ⟨_, _, rfl⟩ | ⟨_, _, rfl⟩ | ⟨_, p, _, rfl⟩ | ⟨_, _, rfl⟩ | ⟨_, _, _, rfl⟩
  pick_goal 10
  · -- CHECK: the frame is judged, then the attempt ends
    rw [endAttempt_cfg, judge_cfg]
  all_goals rfl

/-- No reaction but the one to START writes the configuration. -/
theorem cfg_eq_of_reactNext {e : Event} {s t : State} (h : ReactNext e s t) (he : e.isStart = false) :
    t.cfg = s.cfg := by
  rcases h with ⟨cfg, now, rfl, _⟩ | ⟨_, _, rfl⟩ |
    ⟨_, ⟨now, _, rfl⟩ | ⟨now, _, _, rfl⟩ | ⟨now, _, _, rfl⟩ | ⟨now, _, rfl⟩ | ⟨b, now, _, hb⟩⟩
  · cases he
  · rfl
  · rfl
  · rfl
  · rfl
  · exact afterAttempt_cfg now _ s
  · exact cfg_eq_of_byteNext hb

end Sys2Proof.Machine
end

section
/-! The obligations about the Source Filter and the allow-list it reads (42_filter R150, R152). -/

namespace Sys2Proof.Machine

/-- Settles O27: an entry is the source where all 48 bits agree. -/
theorem filterIsMembership : Obligations.FilterIsMembership := by
  intro cam src
  simp only [filterSource_iff, BitVec.eq_of_getLsbD_eq_iff, Fin.forall_iff]

/-- Settles O51: the step is a reaction, and only the reaction to START loads a configuration. -/
theorem configurationIsConstantInSession : Obligations.ConfigurationIsConstantInSession := by
  intro s t e rest hin hstep he
  rw [step_eq_react hin] at hstep
  exact cfg_eq_of_reactNext (s := { s with input := rest }) (react_next hstep) he

end Sys2Proof.Machine
end

section
/-! The obligations about the Rate Meter: what its two procedures do performed on their own (43_rate_meter R161 to R164,
R167). -/

namespace Sys2Proof.Machine

/-! ### METER.FLUSH on each side of the flush condition (R162) -/

theorem meterFlush_of_due {now : Time} {s : State} (h : flushDue now s.lastFlush s.cfg.rateWindowMs = true) :
    meterFlush now s =
      { s with rate := [], lastFlush := now, out := s.out ++ [.rateSnapshot now (snapshot s.rate)] } :=
  if_pos h

theorem meterFlush_of_not_due {now : Time} {s : State}
    (h : flushDue now s.lastFlush s.cfg.rateWindowMs ≠ true) : meterFlush now s = s :=
  if_neg h

/-- A snapshot lists exactly the counts of at least one: a source without traffic is absent from it (R163). -/
theorem RateWf.mem_snapshot_iff {t : List (SourceId × Count)} (h : RateWf t) (src : SourceId) (c : Count) :
    (src, c) ∈ snapshot t ↔ rateOf t src = c ∧ 1 ≤ c.toNat := by
  have hpos : c ≠ 0 ↔ 1 ≤ c.toNat := by rw [Nat.one_le_iff_ne_zero, Ne, ← BitVec.toNat_inj]; rfl
  rw [snapshot_of_wf h, h.mem_iff, hpos]

/-! ### The obligations -/

/-- Settles O32: the table METER.INC leaves, read at the source and at any other one. -/
theorem meterIncrementsOneSource : Obligations.MeterIncrementsOneSource := fun s src =>
  ⟨(meterInc src s).rate, rfl, by rw [rateOf_meterInc_same, satInc_toNat], fun _ hne => rateOf_meterInc_other s hne,
    RateWf.meterInc⟩

/-- Settles O33: an open window stays as it is; an elapsed one is reported, and the table after it is empty. -/
theorem flushReportsNonZeroCountsAndClears : Obligations.FlushReportsNonZeroCountsAndClears := by
  refine fun s now => ⟨fun hopen => ?_, fun hdue hwf => ⟨[], snapshot s.rate, ?_, fun _ => rfl, hwf.mem_snapshot_iff⟩⟩
  · exact congrArg Host.Outcome.next (meterFlush_of_not_due (mt flushDue_iff.mp (not_le.mpr hopen)))
  · exact congrArg Host.Outcome.next (meterFlush_of_due (flushDue_iff.mpr hdue))

end Sys2Proof.Machine
end

section
/-! The obligations about the system operations: START, NOP.IDLE, FAIL and the two stop requests (44_system R175 to R177,
R179, R180). -/

namespace Sys2Proof.Machine

/-- START of a configuration the capacities admit loads it and resets everything the session reads (R175). -/
theorem exec_start_of_admits {s : State} {cfg : Config} (now : Time) (h : admits s.impl cfg = true) :
    exec (.start cfg now) s =
      .next { s with cfg := cfg, life := .run, phase := .hunt, len := 0, cnt := 0, xorAcc := 0, pbuf := [],
                     lbuf := [], rate := [], lastFlush := now, stopPending := false, rejCount := 0 } :=
  if_pos h

/-- Settles O9: START is the first row of the table, and the capacities admit the configuration. -/
theorem startLoadsConfigurationAndResets : Obligations.StartLoadsConfigurationAndResets := fun s cfg now =>
  ⟨operation_start s cfg now, exec_start_of_admits now⟩

/-- Settles O11: outside a session NOP.IDLE alone agrees with the key, and it answers the state it was given. -/
theorem idleOutsideSession : Obligations.IdleOutsideSession := fun _ _ =>
  ⟨fun hl he => operation_of_life_ne_run hl he, rfl⟩

/-- Settles O12: FAIL alone agrees with its key in every phase, and it writes the life and the output only. -/
theorem failEndsSessionAtOnce : Obligations.FailEndsSessionAtOnce := fun _ now =>
  ⟨fun hl => operation_fail hl now, rfl⟩

/-- Settles O13: the row a stop request selects by the phase, and the next state of each of the two. -/
theorem stopIsImmediateInHuntElseRemembered : Obligations.StopIsImmediateInHuntElseRemembered := fun _ now =>
  ⟨fun hl => operation_stopReq hl now, rfl, rfl⟩

end Sys2Proof.Machine
end

section
/-! SUPPORT. What a step can add to the outputs besides a truncated frame (60_exceptions R203): the reports and attempt
ends of every reaction but the one to a TIMEOUT in a session. -/

namespace Sys2Proof.Machine

/-- A step reacts to the first event presented; with none presented it has no next state. -/
theorem step_next {s t : State} (h : step s = .next t) :
    ∃ e rest, s.input = e :: rest ∧ react e { s with input := rest } = .next t := by
  cases hin : s.input with
  | nil => simp [step, hin] at h
  | cons e rest => exact ⟨e, rest, rfl, (step_eq_react hin).symm.trans h⟩

theorem react_timeout {s : State} (hl : s.life = .run) (now : Time) :
    react (.timeout now) s = .next (afterAttempt now (timeoutReport s) s) := by
  rw [react, if_pos hl, reactTimeout_eq]

/-- The end of an attempt itself drops no frame: it reports a snapshot and a stop (R117). -/
theorem frameDropped_notMem_attemptOutputs (r : DropReason) (now : Time) (s : State) :
    Output.frameDropped r ∉ attemptOutputs now s := by
  rw [attemptOutputs, flushOutputs, stopOutputs]
  split_ifs <;> simp

/-- A TIMEOUT reports a truncated frame in the four phases within a frame, not in HUNT, LINE or SKIP (R203). -/
theorem truncatedFrame_mem_timeoutReport_iff {s : State} :
    Output.frameDropped .truncatedFrame ∈ timeoutReport s ↔
      s.phase = .len0 ∨ s.phase = .len1 ∨ s.phase = .payload ∨ s.phase = .check := by
  cases hp : s.phase <;> simp [timeoutReport, hp]

theorem truncatedFrame_ne_reason (e : DecodeError) : DropReason.truncatedFrame ≠ e.reason := by
  cases e <;> simp [DecodeError.reason]

/-! ### Outputs added without a truncated frame -/

/-- `t` has the outputs of `s` and then others, none of which reports a truncated frame. -/
def AddsNoTruncation (s t : State) : Prop :=
  ∃ new, t.out = s.out ++ new ∧ Output.frameDropped .truncatedFrame ∉ new

theorem AddsNoTruncation.of_out_eq {s t : State} (h : t.out = s.out) : AddsNoTruncation s t :=
  ⟨[], by rw [h, List.append_nil], List.not_mem_nil⟩

theorem AddsNoTruncation.trans {s t u : State} (h : AddsNoTruncation s t) (g : AddsNoTruncation t u) :
    AddsNoTruncation s u := by
  obtain ⟨os, ht, hos⟩ := h
  obtain ⟨ps, hu, hps⟩ := g
  exact ⟨os ++ ps, by rw [hu, ht, List.append_assoc], by simp [hos, hps]⟩

theorem addsNoTruncation_endAttempt (now : Time) (s : State) : AddsNoTruncation s (endAttempt now s) :=
  ⟨_, endAttempt_out now s, frameDropped_notMem_attemptOutputs _ now s⟩

theorem addsNoTruncation_afterAttempt (now : Time) {os : List Output} (s : State)
    (h : Output.frameDropped .truncatedFrame ∉ os) : AddsNoTruncation s (afterAttempt now os s) := by
  rw [← endAttempt_emit]
  exact .trans ⟨os, rfl, h⟩ (addsNoTruncation_endAttempt now _)

/-- CHK.BYTE reports what the frame decodes to (R136), which is no truncation. -/
theorem addsNoTruncation_judge (s : State) (x : Except DecodeError Record) : AddsNoTruncation s (judge s x) := by
  cases x with
  | error e => exact ⟨_, rfl, by simp [truncatedFrame_ne_reason]⟩
  | ok r =>
    rw [judge]
    split_ifs
    · exact ⟨_, rfl, by simp⟩
    · exact ⟨_, rfl, by simp⟩

/-- No byte reports a truncated frame. -/
theorem addsNoTruncation_of_byteNext {b : Byte} {now : Time} {s t : State} (h : ByteNext b now s t) :
    AddsNoTruncation s t := by
  rcases h with ⟨_, _, rfl⟩ | ⟨_, _, _, rfl⟩ | ⟨_, _, _, rfl⟩ | ⟨_, _, rfl⟩ | ⟨_, _, rfl⟩ | ⟨_, rfl⟩ | ⟨_, _, rfl⟩ |
    ⟨_, _, rfl⟩ | ⟨_, _, rfl⟩ | ⟨_, p, _, rfl⟩ | ⟨_, _, rfl⟩ | ⟨_, _, _, rfl⟩
  · exact .of_out_eq rfl
  · exact addsNoTruncation_afterAttempt now s (by simp)
  · exact .of_out_eq rfl
  · exact addsNoTruncation_afterAttempt now s (by simp)
  · exact .of_out_eq rfl
  · exact .of_out_eq rfl
  · exact .of_out_eq rfl
  · -- LEN.HI.OOB reports a length out of bounds
    exact ⟨_, rfl, by simp⟩
  · exact .of_out_eq rfl
  · -- CHK.BYTE judges the frame, then ends the attempt
    exact (addsNoTruncation_judge s _).trans (addsNoTruncation_endAttempt now _)
  · exact addsNoTruncation_afterAttempt now s List.not_mem_nil
  · exact .of_out_eq rfl

/-- No reaction reports a truncated frame but the one to a TIMEOUT in a session. -/
theorem addsNoTruncation_of_reactNext {e : Event} {s t : State} (h : ReactNext e s t)
    (he : ¬ (s.life = .run ∧ ∃ now, e = .timeout now)) : AddsNoTruncation s t := by
  rcases h with ⟨cfg, now, _, rfl | rfl⟩ | ⟨_, _, rfl⟩ |
    ⟨hl, ⟨now, _, rfl⟩ | ⟨now, _, _, rfl⟩ | ⟨now, _, _, rfl⟩ | ⟨now, hnow, _⟩ | ⟨b, now, _, hb⟩⟩
  · exact .of_out_eq rfl
  · exact .of_out_eq rfl
  · exact .of_out_eq rfl
  · -- FAIL
    exact ⟨_, rfl, by simp⟩
  · -- STOP.NOW
    exact ⟨_, rfl, by simp⟩
  · exact .of_out_eq rfl
  · exact absurd ⟨hl, now, hnow⟩ he
  · exact addsNoTruncation_of_byteNext hb

end Sys2Proof.Machine
end

section
/-! The obligation about what raises an exception: the truncated frame (60_exceptions R203). -/

namespace Sys2Proof.Machine

/-- Settles O54: a TIMEOUT in a session reports by its phase, and no other reaction reports a truncated frame. -/
theorem truncationReportedOnlyByTimeoutInFrame : Obligations.TruncationReportedOnlyByTimeoutInFrame := by
  intro s t hstep
  obtain ⟨e, rest, hin, hreact⟩ := step_next hstep
  by_cases he : s.life = .run ∧ ∃ now, e = .timeout now
  · obtain ⟨hl, now, rfl⟩ := he
    rw [react_timeout (s := { s with input := rest }) hl, Host.Outcome.next.injEq] at hreact
    subst hreact
    refine ⟨timeoutReport { s with input := rest } ++ attemptOutputs now { s with input := rest },
      List.append_assoc _ _ _, ?_⟩
    simp [frameDropped_notMem_attemptOutputs, truncatedFrame_mem_timeoutReport_iff, hl, hin]
  · obtain ⟨new, hout, hnone⟩ := addsNoTruncation_of_reactNext (s := { s with input := rest }) (react_next hreact) he
    refine ⟨new, hout, iff_of_false hnone ?_⟩
    rintro ⟨hl, ⟨now, rest', hin'⟩, _⟩
    rw [hin] at hin'
    exact he ⟨hl, now, (List.cons.inj hin').1⟩

end Sys2Proof.Machine
end

section
/-! SUPPORT. Instruction images (30_encoding R70, R71, R78, R79, R91; log entry 6): what the decoder takes from the
front of an image, and that whatever it accepts meets the conditions of its row. -/

namespace Sys2Proof

open Machine

/-! ### Selection under a key -/

/-- The first operation that agrees with the key and whose condition holds is the one built. -/
theorem select_of_find? {ctx : SelCtx} {key : Key} {e : Event} {c : OpName × Cond}
    (h : (candidates key).find? (fun d => d.2.holds ctx e.data) = some c) : select ctx key e = c.1.build e := by
  rw [select, selectRow_eq_find?_candidates, h]
  rfl

/-- The operation of a key whose first candidate has no condition. -/
theorem select_of_unconditional {ctx : SelCtx} {key : Key} {e : Event} {o : OpName}
    (h : (candidates key).head? = some (o, .none)) : select ctx key e = o.build e := by
  obtain ⟨rest, hcons⟩ := List.head?_eq_some_iff.mp h
  exact select_of_find? (c := (o, .none)) (by rw [hcons]; rfl)

/-- The conditions of a phase's `BYTE` rows exclude one another: the row whose condition holds is the first such row. -/
theorem find?_byteCandidates {ctx : SelCtx} {p : Phase} {b : Byte} {c : OpName × Cond} (hmem : c ∈ byteCandidates p)
    (hc : c.2.holds ctx b = true) : (byteCandidates p).find? (fun d => d.2.holds ctx b) = some c := by
  cases p with
  | len0 | payload | check | skip =>
    obtain rfl := List.mem_singleton.mp hmem
    rfl
  | hunt =>
    simp only [byteCandidates, List.mem_cons, List.not_mem_nil, or_false] at hmem
    rcases hmem with rfl | rfl | rfl
    · simp_all [byteCandidates, Cond.holds]
    · simp only [Cond.holds, Bool.and_eq_true, beq_iff_eq, bne_iff_ne] at hc
      obtain ⟨rfl, hm⟩ := hc
      simpa [byteCandidates, Cond.holds] using hm
    · simp_all [byteCandidates, Cond.holds]
  | line | len1 =>
    simp only [byteCandidates, List.mem_cons, List.not_mem_nil, or_false] at hmem
    rcases hmem with rfl | rfl <;> simp_all [byteCandidates, Cond.holds]

/-- In a session a byte selects the row of the phase whose condition it meets. -/
theorem select_byte {ctx : SelCtx} {p : Phase} {b : Byte} {c : OpName × Cond} (now : Time)
    (hmem : c ∈ byteCandidates p) (hc : c.2.holds ctx b = true) :
    select ctx (keyOf .run p (.byte b now)) (.byte b now) = c.1.build (.byte b now) :=
  select_of_find? (by rw [candidates_byte]; exact find?_byteCandidates hmem hc)

/-- In a session a TIMEOUT selects the `TIMEOUT` row of the phase. -/
theorem select_timeout (ctx : SelCtx) (p : Phase) (now : Time) :
    select ctx (keyOf .run p (.timeout now)) (.timeout now) = (timeoutName p).build (.timeout now) :=
  select_of_unconditional (by rw [candidates_timeout]; rfl)

/-- The condition of an operation's row (R82). -/
def OpName.cond : OpName → Cond
  | .huntMarker => .isMarker
  | .huntEol => .isEol
  | .huntText => .isText
  | .lineEol => .isTerm
  | .lineText => .notTerm
  | .lenHi => .inBounds
  | .lenHiOob => .outOfBounds
  | _ => .none

theorem cond_of_mem_opTable : ∀ r ∈ opTable, r.cond = r.op.cond := by decide

/-- A row is selected only where its condition holds. -/
theorem cond_holds_of_selectRow {ctx : SelCtx} {key : Key} {b : Byte} {o : OpName}
    (h : selectRow ctx key b = some o) : o.cond.holds ctx b = true := by
  obtain ⟨r, hr, rfl⟩ := Option.map_eq_some_iff.mp h
  have hsel := List.find?_some hr
  rw [OpRow.selects, Bool.and_eq_true] at hsel
  rw [← cond_of_mem_opTable r (List.mem_of_find?_eq_some hr)]
  exact hsel.2

/-- The low three bits of a selector key are the event's kind (R91). -/
theorem keyOf_kind (l : Life) (p : Phase) (e : Event) : (keyOf l p e).extractLsb' 0 3 = e.kind := by
  rw [keyOf, BitVec.extractLsb'_append_eq_right]

/-! ### What is taken from the front of an image -/

theorem takeTime_timeBytes (now : Time) (rest : List Byte) : takeTime (timeBytes now ++ rest) = some (now, rest) := by
  have htake : (timeBytes now ++ rest).take 8 = timeBytes now := List.take_left' (length_timeBytes now)
  have hdrop : (timeBytes now ++ rest).drop 8 = rest := List.drop_left' (length_timeBytes now)
  rw [takeTime, if_pos (by simp), htake, hdrop, le64_timeBytes]

theorem takeEvent_eventBytes {cfgIn : Config} {kind : BitVec 3} {b : Byte} {now : Time} {e : Event}
    (he : eventOf cfgIn kind b now = some e) (rest : List Byte) :
    takeEvent cfgIn kind (eventBytes b now ++ rest) = .ok (e, rest) := by
  rw [eventBytes, List.cons_append, takeEvent, takeTime_timeBytes]
  simp only [he]

/-- An event that is taken is the one its kind, a data byte and a clock reading stand for. -/
theorem eventOf_of_takeEvent {cfgIn : Config} {kind : BitVec 3} {s rest : List Byte} {e : Event}
    (h : takeEvent cfgIn kind s = .ok (e, rest)) : ∃ b now, eventOf cfgIn kind b now = some e := by
  unfold takeEvent at h
  split at h
  · cases h
  · split at h
    · cases h
    · split at h
      · next he => cases h; exact ⟨_, _, he⟩
      · cases h

/-- The kind of the event is the code it was read under, and a START carries the configuration presented. -/
theorem kind_of_eventOf {cfgIn : Config} {kind : BitVec 3} {b : Byte} {now : Time} {e : Event}
    (h : eventOf cfgIn kind b now = some e) : e.kind = kind ∧ e.instr.cfgFits cfgIn = true := by
  unfold eventOf at h
  split at h
  pick_goal 6
  · cases h
  all_goals
    next hk =>
    cases h
    exact ⟨(BitVec.eq_of_toNat_eq hk).symm, by simp [Event.instr, Instr.cfgFits]⟩

/-- An event is the one its own kind, data byte and clock reading stand for. -/
theorem eventOf_kind {cfgIn : Config} {e : Event} (h : e.instr.cfgFits cfgIn = true) :
    eventOf cfgIn e.kind e.data e.now = some e := by
  cases e with
  | start cfg now =>
    obtain rfl : cfg = cfgIn := of_decide_eq_true h
    rfl
  | byte b now | timeout now | stopReq now | fail now => rfl

/-! ### The decoder on each kind of image -/

/-- An OP image decodes to the operation its key selects for the event. -/
theorem decode_opImage {ctx : SelCtx} {cfgIn : Config} {key : Key} {b : Byte} {now : Time} {e : Event} {i : Instr}
    (he : eventOf cfgIn (key.extractLsb' 0 3) b now = some e) (hs : select ctx key e = some i) (rest : List Byte) :
    decode ctx cfgIn (opImage key b now ++ rest) = .ok (i, rest) := by
  have hlt : (key.setWidth 8).toNat < 128 := by rw [BitVec.toNat_setWidth]; omega
  have hkey : (key.setWidth 8).extractLsb' 0 7 = key := by
    apply BitVec.eq_of_toNat_eq
    simpa using key.isLt
  rw [opImage, List.cons_append, decode, if_pos hlt, hkey, decodeOp, takeEvent_eventBytes he]
  simp only [hs]

/-- An EVENT image decodes to the row of the event. -/
theorem decode_eventImage {ctx : SelCtx} {cfgIn : Config} {h b : Byte} {now : Time} {e : Event}
    (hlo : 128 ≤ h.toNat) (hhi : h.toNat < 136) (he : eventOf cfgIn (h.extractLsb' 0 3) b now = some e)
    (rest : List Byte) : decode ctx cfgIn (h :: eventBytes b now ++ rest) = .ok (e.instr, rest) := by
  rw [List.cons_append, decode, if_neg (not_lt.mpr hlo), if_pos hhi, decodeEvent, takeEvent_eventBytes he]

/-- A WIRE image is its clock reading and then the bytes of its pattern. -/
theorem decodeWire_timeBytes (f : Time → List Byte → Except Reject (Instr × List Byte)) (now : Time) (w : List Byte) :
    decodeWire f (timeBytes now ++ w) = f now w := by
  rw [decodeWire, takeTime_timeBytes]

theorem decodeFrameBytes_frameBytes (ctx : SelCtx) (now : Time) {p : List Byte} (c : Byte) (rest : List Byte)
    (hp : p.length < 65536) :
    decodeFrameBytes ctx now (frameBytes ctx.marker p c ++ rest) = .ok (.frame p c now, rest) := by
  have hlen : (le16 [BitVec.ofNat 8 p.length, BitVec.ofNat 8 (p.length / 256)]).toNat = p.length := le16_halfBytes hp
  have hbytes : frameBytes ctx.marker p c ++ rest =
      ctx.marker :: BitVec.ofNat 8 p.length :: BitVec.ofNat 8 (p.length / 256) :: (p ++ c :: rest) := by
    simp [frameBytes, halfBytes, leBytes]
  rw [hbytes, decodeFrameBytes, if_pos (beq_self_eq_true _), hlen, List.drop_left, List.take_left]

theorem decodePayloadBytes_payloadBytes (src : SourceId) (ts : Time) {v : List Int} (now : Time) (rest : List Byte)
    (hn : v.length < 65536) (hv : v.all isI8 = true) :
    decodePayloadBytes now (payloadBytes src ts v ++ rest) = .ok (.payload src ts v now, rest) := by
  have hdrop : (payloadBytes src ts v ++ rest).drop (16 + v.length) = rest :=
    List.drop_left' (length_payloadBytes src ts v)
  have hfit : headerLen ≤ (payloadBytes src ts v ++ rest).length ∧
      headerLen + v.length ≤ (payloadBytes src ts v ++ rest).length := by
    rw [List.length_append, length_payloadBytes, headerLen]
    omega
  simp only [decodePayloadBytes, count_of_payload src ts v rest hn, source_of_payload, timestamp_of_payload,
    samples_of_payload src ts v rest hv, hdrop, if_pos hfit]

theorem splitLine_terminated {ys : List Byte} (rest : List Byte) (h : lineTerm ∉ ys) :
    splitLine (ys ++ lineTerm :: rest) = (ys, true, rest) := by
  induction ys with
  | nil => rfl
  | cons y ys ih =>
    obtain ⟨hy, hys⟩ := List.ne_and_not_mem_of_not_mem_cons h
    rw [List.cons_append, splitLine, if_neg (by simpa using Ne.symm hy), ih hys]

theorem splitLine_open {ys : List Byte} (h : lineTerm ∉ ys) : splitLine ys = (ys, false, []) := by
  induction ys with
  | nil => rfl
  | cons y ys ih =>
    obtain ⟨hy, hys⟩ := List.ne_and_not_mem_of_not_mem_cons h
    rw [splitLine, if_neg (by simpa using Ne.symm hy), ih hys]

/-- The text a line is split at holds no terminator. -/
theorem splitLine_notMem (s : List Byte) : lineTerm ∉ (splitLine s).1 := by
  induction s with
  | nil => simp [splitLine]
  | cons b s ih =>
    rw [splitLine]
    split_ifs with hb
    · simp
    · simp only [List.mem_cons, not_or]
      exact ⟨fun h => hb (by simp [h]), ih⟩

/-- A well-formed text line, by its parts (R78). -/
theorem textLine_wellFormed_iff {ctx : SelCtx} {x : Byte} {ys : List Byte} {ended : Bool} {now : Time} :
    (Instr.textLine x ys ended now).wellFormed ctx = true ↔
      x ≠ ctx.marker ∧ lineTerm ∉ ys ∧ (x = lineTerm → ys = [] ∧ ended = true) := by
  simp only [Instr.wellFormed, Bool.and_eq_true, Bool.or_eq_true, bne_iff_ne, List.all_eq_true, List.isEmpty_iff,
    and_assoc, ne_eq, or_iff_not_imp_left, not_not]
  exact and_congr_right fun _ => and_congr_left fun _ => ⟨fun h hm => h _ hm rfl, fun h y hy e => h (e ▸ hy)⟩

theorem decodeTextBytes_textBytes {ctx : SelCtx} {x : Byte} {ys : List Byte} {ended : Bool} (now : Time)
    {rest : List Byte} (hx : x ≠ ctx.marker) (hys : lineTerm ∉ ys) (hterm : x = lineTerm → ys = [] ∧ ended = true)
    (hrest : ended = true ∨ rest = []) :
    decodeTextBytes ctx now (textBytes x ys ended ++ rest) = .ok (.textLine x ys ended now, rest) := by
  have hm : ¬ (x == ctx.marker) = true := by simpa using hx
  by_cases ht : x = lineTerm
  · obtain ⟨rfl, rfl⟩ := hterm ht
    subst ht
    rw [textBytes, if_pos (beq_self_eq_true _), List.singleton_append, decodeTextBytes, if_neg hm,
      if_pos (beq_self_eq_true _)]
  · have hb : ¬ (x == lineTerm) = true := by simpa using ht
    rw [textBytes, if_neg hb, List.cons_append, decodeTextBytes, if_neg hm, if_neg hb]
    cases ended with
    | true => simp only [if_true, List.append_assoc, List.singleton_append, splitLine_terminated rest hys]
    | false =>
      obtain rfl : rest = [] := by simpa using hrest
      simp [splitLine_open hys]

end Sys2Proof
end

section
/-! The obligations about instruction images: decoding what is encoded, and what decodes. -/

namespace Sys2Proof.Machine

/-! ### Decoding an image -/

/-- The image of an operation under the key of a `life` and `phase` that select it. -/
theorem decode_keyImage {ctx : SelCtx} {cfgIn : Config} {key : Key} {l : Life} {p : Phase} {e : Event} {i : Instr}
    (hkey : keyOf l p e = key) (he : e.instr.cfgFits cfgIn = true) (hs : select ctx (keyOf l p e) e = some i)
    (rest : List Byte) : decode ctx cfgIn (opImage key e.data e.now ++ rest) = .ok (i, rest) := by
  subst hkey
  exact decode_opImage (by rw [keyOf_kind]; exact eventOf_kind he) hs rest

/-- An operation of a `BYTE` row, whose condition its byte meets. -/
theorem decode_byteImage {ctx : SelCtx} {cfgIn : Config} {key : Key} {b : Byte} {now : Time} {i : Instr} (p : Phase)
    (o : OpName) (hkey : keyOf .run p (.byte 0 0) = key) (hmem : (o, o.cond) ∈ byteCandidates p)
    (hc : o.cond.holds ctx b = true) (hb : o.build (.byte b now) = some i) (rest : List Byte) :
    decode ctx cfgIn (opImage key b now ++ rest) = .ok (i, rest) :=
  decode_keyImage (e := .byte b now) hkey rfl ((select_byte now hmem hc).trans hb) rest

/-- An operation of a `TIMEOUT` row. -/
theorem decode_timeoutImage {ctx : SelCtx} {cfgIn : Config} {key : Key} {now : Time} {i : Instr} (p : Phase)
    (hkey : keyOf .run p (.timeout 0) = key) (hb : (timeoutName p).build (.timeout now) = some i) (rest : List Byte) :
    decode ctx cfgIn (opImage key 0 now ++ rest) = .ok (i, rest) :=
  decode_keyImage (e := .timeout now) hkey rfl ((select_timeout ctx p now).trans hb) rest

/-- The image of NOP.IDLE holds the event it idles on; its key is the one of that event outside a session, in HUNT. -/
theorem decode_nopIdle {ctx : SelCtx} {cfgIn : Config} {e : Event} (he : e.isStart = false) (rest : List Byte) :
    decode ctx cfgIn (opImage (e.kind.setWidth 7) e.data e.now ++ rest) = .ok (.nopIdle e, rest) := by
  have hbits : ∀ k : BitVec 3, (0 : BitVec 1) ++ Phase.hunt.code ++ k = k.setWidth 7 := by decide
  have hkey : keyOf .off .hunt e = e.kind.setWidth 7 := by
    rw [keyOf, if_neg (by decide)]
    exact hbits e.kind
  have hc : candidates (keyOf .off .hunt e) = [(.nopIdle, .none)] := candidates_of_life_ne_run (by decide) .hunt he
  have hs : select ctx (keyOf .off .hunt e) e = OpName.nopIdle.build e := select_of_unconditional (by rw [hc]; rfl)
  have hb : OpName.nopIdle.build e = some (.nopIdle e) ∧ e.instr.cfgFits cfgIn = true := by
    cases e with
    | start cfg now => cases he
    | byte b now | timeout now | stopReq now | fail now => exact ⟨rfl, rfl⟩
  exact decode_keyImage hkey hb.2 (hs.trans hb.1) rest

/-- The decoder reads an instruction from the front of its image (R70, R71, R78, R79, R91). -/
theorem decode_encode {ctx : SelCtx} {cfgIn : Config} {i : Instr} {bs rest : List Byte}
    (hwf : i.wellFormed ctx = true) (hcfg : i.cfgFits cfgIn = true) (henc : encode ctx i = some bs)
    (hself : i.selfDelimiting = true ∨ rest = []) : decode ctx cfgIn (bs ++ rest) = .ok (i, rest) := by
  cases i with
  | decode p c now | filter src | meterInc src | meterFlush now | endAttempt now => cases henc
  | start cfg now =>
    cases henc
    exact decode_keyImage (l := .off) (p := .hunt) (e := .start cfg now) (by simp [keyOf, Phase.code, Event.kind]) hcfg
      (select_of_unconditional (head?_candidates_start ..)) rest
  | nopIdle e =>
    cases henc
    exact decode_nopIdle (by simpa [Instr.wellFormed] using hwf) rest
  | fail now =>
    cases henc
    exact decode_keyImage (l := .run) (p := .hunt) (e := .fail now) (by simp [keyOf, Phase.code, Event.kind]) rfl
      (select_of_unconditional (o := .fail) (by rw [candidates_fail]; rfl)) rest
  | stopNow now =>
    cases henc
    exact decode_keyImage (l := .run) (p := .hunt) (e := .stopReq now) (by simp [keyOf, Phase.code, Event.kind]) rfl
      (select_of_unconditional (o := .stopNow) (by rw [candidates_stopReq]; rfl)) rest
  | stopPend now =>
    cases henc
    exact decode_keyImage (l := .run) (p := .line) (e := .stopReq now) (by simp [keyOf, Phase.code, Event.kind]) rfl
      (select_of_unconditional (o := .stopPend) (by rw [candidates_stopReq]; rfl)) rest
  | huntTimeout now => cases henc; exact decode_timeoutImage .hunt (by decide) rfl rest
  | lineTimeout now => cases henc; exact decode_timeoutImage .line (by decide) rfl rest
  | len0Timeout now => cases henc; exact decode_timeoutImage .len0 (by decide) rfl rest
  | len1Timeout now => cases henc; exact decode_timeoutImage .len1 (by decide) rfl rest
  | payTimeout now => cases henc; exact decode_timeoutImage .payload (by decide) rfl rest
  | chkTimeout now => cases henc; exact decode_timeoutImage .check (by decide) rfl rest
  | skipTimeout now => cases henc; exact decode_timeoutImage .skip (by decide) rfl rest
  | huntMarker b now => cases henc; exact decode_byteImage .hunt .huntMarker (by decide) (by decide) hwf rfl rest
  | huntEol b now => cases henc; exact decode_byteImage .hunt .huntEol (by decide) (by decide) hwf rfl rest
  | huntText b now => cases henc; exact decode_byteImage .hunt .huntText (by decide) (by decide) hwf rfl rest
  | lineEol b now => cases henc; exact decode_byteImage .line .lineEol (by decide) (by decide) hwf rfl rest
  | lineText b now => cases henc; exact decode_byteImage .line .lineText (by decide) (by decide) hwf rfl rest
  | lenLo b now => cases henc; exact decode_byteImage .len0 .lenLo (by decide) (by decide) hwf rfl rest
  | lenHi b now => cases henc; exact decode_byteImage .len1 .lenHi (by decide) (by decide) hwf rfl rest
  | lenHiOob b now => cases henc; exact decode_byteImage .len1 .lenHiOob (by decide) (by decide) hwf rfl rest
  | payByte b now => cases henc; exact decode_byteImage .payload .payByte (by decide) (by decide) hwf rfl rest
  | chkByte b now => cases henc; exact decode_byteImage .check .chkByte (by decide) (by decide) hwf rfl rest
  | skipByte b now => cases henc; exact decode_byteImage .skip .skipByte (by decide) (by decide) hwf rfl rest
  | evStart cfg now =>
    cases henc
    obtain rfl : cfg = cfgIn := of_decide_eq_true hcfg
    exact decode_eventImage (e := .start cfg now) (by decide) (by decide) rfl rest
  | evByte b now => cases henc; exact decode_eventImage (e := .byte b now) (by decide) (by decide) rfl rest
  | evTimeout now => cases henc; exact decode_eventImage (e := .timeout now) (by decide) (by decide) rfl rest
  | evStopReq now => cases henc; exact decode_eventImage (e := .stopReq now) (by decide) (by decide) rfl rest
  | evFail now => cases henc; exact decode_eventImage (e := .fail now) (by decide) (by decide) rfl rest
  | frame p c now =>
    cases henc
    rw [List.cons_append, List.append_assoc]
    exact (decodeWire_timeBytes _ now _).trans (decodeFrameBytes_frameBytes ctx now c rest (of_decide_eq_true hwf))
  | payload src ts v now =>
    cases henc
    obtain ⟨hn, hv⟩ := Bool.and_eq_true_iff.mp hwf
    rw [List.cons_append, List.append_assoc]
    exact (decodeWire_timeBytes _ now _).trans
      (decodePayloadBytes_payloadBytes src ts now rest (of_decide_eq_true hn) hv)
  | textLine x ys ended now =>
    cases henc
    obtain ⟨hx, hys, hterm⟩ := textLine_wellFormed_iff.mp hwf
    rw [List.cons_append, List.append_assoc]
    exact (decodeWire_timeBytes _ now _).trans (decodeTextBytes_textBytes now hx hys hterm hself)

/-- Settles O4: the operations and event rows by their key or kind, the wire formats by their patterns. -/
theorem decodeOfEncodeIsInstruction : Obligations.DecodeOfEncodeIsInstruction :=
  fun _ _ _ _ _ hwf hcfg henc hself => decode_encode hwf hcfg henc hself

/-! ### What decodes -/

/-- The conditions on whatever is decoded: it is well formed, its configuration is the one presented, and it has an
image. -/
abbrev Sound (ctx : SelCtx) (cfgIn : Config) (i : Instr) : Prop :=
  i.wellFormed ctx = true ∧ i.cfgFits cfgIn = true ∧ (encode ctx i).isSome = true

/-- What a row builds from an event of its kind, under its condition. -/
theorem build_sound {ctx : SelCtx} {cfgIn : Config} {o : OpName} {e : Event} {i : Instr} (hb : o.build e = some i)
    (hc : o.cond.holds ctx e.data = true) (he : e.instr.cfgFits cfgIn = true) : Sound ctx cfgIn i := by
  cases e with
  | start cfg now =>
    rw [OpName.build] at hb
    split_ifs at hb
    cases hb
    exact ⟨rfl, he, rfl⟩
  | byte b now => cases o <;> cases hb <;> exact ⟨hc, rfl, rfl⟩
  | timeout now => cases o <;> cases hb <;> exact ⟨rfl, rfl, rfl⟩
  | stopReq now => cases o <;> cases hb <;> exact ⟨rfl, rfl, rfl⟩
  | fail now => cases o <;> cases hb <;> exact ⟨rfl, rfl, rfl⟩

theorem decodeOp_sound {ctx : SelCtx} {cfgIn : Config} {key : Key} {s rest : List Byte} {i : Instr}
    (h : decodeOp ctx cfgIn key s = .ok (i, rest)) : Sound ctx cfgIn i := by
  unfold decodeOp at h
  split at h
  · cases h
  · next htake =>
    obtain ⟨b, now, he⟩ := eventOf_of_takeEvent htake
    split at h
    · next hs =>
      cases h
      rw [select] at hs
      split at hs
      · next ho => exact build_sound hs (cond_holds_of_selectRow ho) (kind_of_eventOf he).2
      · cases hs
    · cases h

theorem decodeEvent_sound {ctx : SelCtx} {cfgIn : Config} {kind : BitVec 3} {s rest : List Byte} {i : Instr}
    (h : decodeEvent cfgIn kind s = .ok (i, rest)) : Sound ctx cfgIn i := by
  unfold decodeEvent at h
  split at h
  · cases h
  · next e _ htake =>
    cases h
    obtain ⟨b, now, he⟩ := eventOf_of_takeEvent htake
    refine ⟨?_, (kind_of_eventOf he).2, ?_⟩ <;> cases e <;> rfl

/-- A wire image decodes to what its bytes decode to at some clock reading. -/
theorem decodeWire_ok {f : Time → List Byte → Except Reject (Instr × List Byte)} {s rest : List Byte} {i : Instr}
    (h : decodeWire f s = .ok (i, rest)) : ∃ now w, f now w = .ok (i, rest) := by
  unfold decodeWire at h
  split at h
  · cases h
  · exact ⟨_, _, h⟩

theorem decodeFrameBytes_sound {ctx : SelCtx} {cfgIn : Config} {now : Time} {s rest : List Byte} {i : Instr}
    (h : decodeFrameBytes ctx now s = .ok (i, rest)) : Sound ctx cfgIn i := by
  unfold decodeFrameBytes at h
  split at h
  · next l hi s =>
    split_ifs at h
    split at h
    · cases h
      have hlen := List.length_take_le (le16 [l, hi]).toNat s
      exact ⟨decide_eq_true (hlen.trans_lt (le16 [l, hi]).isLt), rfl, rfl⟩
    · cases h
  · cases h

theorem decodePayloadBytes_sound {ctx : SelCtx} {cfgIn : Config} {now : Time} {s rest : List Byte} {i : Instr}
    (h : decodePayloadBytes now s = .ok (i, rest)) : Sound ctx cfgIn i := by
  unfold decodePayloadBytes at h
  dsimp only at h
  split_ifs at h
  cases h
  have hlen : (slice s 16 (16 + (le16 (slice s 14 16)).toNat)).length ≤ (le16 (slice s 14 16)).toNat := by
    rw [slice, Nat.add_sub_cancel_left]
    exact List.length_take_le ..
  refine ⟨Bool.and_eq_true_iff.mpr ⟨decide_eq_true ?_, ?_⟩, rfl, rfl⟩
  · rw [List.length_map]
    exact hlen.trans_lt (le16 (slice s 14 16)).isLt
  · simp [isI8_s8]

theorem decodeTextBytes_sound {ctx : SelCtx} {cfgIn : Config} {now : Time} {s rest : List Byte} {i : Instr}
    (h : decodeTextBytes ctx now s = .ok (i, rest)) : Sound ctx cfgIn i := by
  cases s with
  | nil => cases h
  | cons x s =>
    rw [decodeTextBytes] at h
    split_ifs at h with hm ht
    · cases h
      have hx : x = lineTerm := by simpa using ht
      exact ⟨textLine_wellFormed_iff.mpr ⟨by simpa using hm, List.not_mem_nil, fun _ => ⟨rfl, rfl⟩⟩, rfl, rfl⟩
    · cases h
      have hx : x ≠ lineTerm := by simpa using ht
      exact ⟨textLine_wellFormed_iff.mpr ⟨by simpa using hm, splitLine_notMem s, fun h => absurd h hx⟩, rfl, rfl⟩

/-- Settles O5: by the kind of image the head byte names. -/
theorem decodedInstructionIsWellFormed : Obligations.DecodedInstructionIsWellFormed := by
  intro ctx cfgIn bs rest i h
  cases bs with
  | nil => cases h
  | cons head s =>
    rw [decode] at h
    split_ifs at h
    · exact decodeOp_sound h
    · exact decodeEvent_sound h
    · obtain ⟨now, w, hw⟩ := decodeWire_ok h
      exact decodeFrameBytes_sound hw
    · obtain ⟨now, w, hw⟩ := decodeWire_ok h
      exact decodePayloadBytes_sound hw
    · obtain ⟨now, w, hw⟩ := decodeWire_ok h
      exact decodeTextBytes_sound hw

/-- Settles O3: each word, evaluated. -/
theorem writtenOutWordsDecode : Obligations.WrittenOutWordsDecode := by
  refine ⟨?_, ?_, ?_, ?_, ?_, ?_, ?_, ?_, ?_⟩ <;> decide

/-! ### A table word placed for the next step (log entry 15) -/

/-- The event of a table word is of the kind its key says, and the decoder selects under that key. -/
theorem select_of_decodeTableWord {nbits w : Nat} {key : Key} {e : Event} {i : Instr}
    (ht : tableEvent nbits w = some (key, e)) (hd : decodeTableWord nbits w = some i) :
    e.kind = key.extractLsb' 0 3 ∧ select SelCtx.default key e = some i := by
  have hlow : ∀ h : Byte, (h.extractLsb' 0 7).extractLsb' 0 3 = h.extractLsb' 0 3 := fun h => by
    rw [BitVec.extractLsb'_extractLsb'_of_le (by decide)]
  unfold tableEvent at ht
  unfold decodeTableWord at hd
  cases himg : tableImage nbits w with
  | nil => simp [himg] at ht
  | cons h s =>
    simp only [himg, decode] at ht hd
    split_ifs at ht hd
    cases htake : takeEvent Config.default (h.extractLsb' 0 3) s with
    | error r => simp [htake] at ht
    | ok x =>
      obtain ⟨b, now, he⟩ := eventOf_of_takeEvent htake
      simp only [htake, Option.some.injEq, Prod.mk.injEq] at ht
      obtain ⟨rfl, rfl⟩ := ht
      rw [hlow]
      refine ⟨(kind_of_eventOf he).1, ?_⟩
      cases hs : select SelCtx.default (h.extractLsb' 0 7) x.1 with
      | none => simp [decodeOp, hlow, htake, hs] at hd
      | some j => simpa [decodeOp, hlow, htake, hs] using hd

theorem phaseOf_getD_code {c : BitVec 3} (h : c ≠ 7) (p : Phase) : ((phaseOf c).getD p).code = c := by
  have hcode : ∀ c : BitVec 3, c ≠ 7 → (phaseOf c).map Phase.code = some c := by decide
  obtain ⟨q, hq, hc⟩ := Option.map_eq_some_iff.mp (hcode c h)
  rw [hq, Option.getD_some, hc]

theorem lifeFor_eq_run_iff {running : Bool} {l : Life} : lifeFor running l = .run ↔ running = true := by
  cases running with
  | true => simp [lifeFor]
  | false => by_cases hl : l = .run <;> simp [lifeFor, hl]

/-- The state a table word is placed in has the key of that word for its event. -/
theorem keyOf_presented (s : State) {key : Key} {e : Event} (hp : key.extractLsb' 3 3 ≠ 7)
    (he : e.kind = key.extractLsb' 0 3) : keyOf (s.presented key e).life (s.presented key e).phase e = key := by
  have hbits : ∀ k : Key, BitVec.ofBool (k.getLsbD 6) ++ k.extractLsb' 3 3 ++ k.extractLsb' 0 3 = k := by decide
  have hlife : (if (s.presented key e).life = .run then 1 else 0 : BitVec 1) = BitVec.ofBool (key.getLsbD 6) := by
    simp only [State.presented, lifeFor_eq_run_iff]
    cases key.getLsbD 6 <;> rfl
  rw [keyOf, hlife, he, State.presented, phaseOf_getD_code hp, hbits]

/-- The state a table word is placed in has the comparator inputs the word is decoded under. -/
theorem selCtx_presented (s : State) (key : Key) (e : Event) : (s.presented key e).selCtx = SelCtx.default := by
  have hmask : ∀ i < 8, (0xFF00 : Half).getLsbD i = false := by decide
  have hlo : (s.presented key e).lenLo = 0 := by
    refine BitVec.eq_of_getLsbD_eq fun i hi => ?_
    simpa [State.lenLo, State.presented] using fun _ _ => hmask i hi
  rw [State.selCtx, hlo]
  rfl

/-- Settles O2: the placed state has the key and the comparator inputs the word is decoded under. -/
theorem fetchedWordRunsDecodedInstruction : Obligations.FetchedWordRunsDecodedInstruction := by
  intro s nbits w key e i ht hp hd
  obtain ⟨hkind, hsel⟩ := select_of_decodeTableWord ht hd
  have hplace : s.withFetchWord nbits w = s.presented key e := by rw [State.withFetchWord, placeTableWord, ht]
  have hop : State.operation { s.presented key e with input := s.input } e = some i := by
    rw [← hsel, ← selCtx_presented s key e]
    exact congrArg (fun k => select (s.presented key e).selCtx k e) (keyOf_presented s hp hkind)
  rw [hplace, step]
  simp only [State.presented] at hop ⊢
  rw [hop]

end Sys2Proof.Machine
end

section
/-! SUPPORT. What a reaction reads and writes of the model's own fields, and the small facts the system's statements
rest on: the capacities (42_filter R154, U23) and the cells a read needs (20_memory R52). -/

namespace Sys2Proof.Machine

/-! ### The reaction to a byte in each phase (R90, test 6) -/

theorem reactByte_of_hunt {s : State} (hp : s.phase = .hunt) (b : Byte) (now : Time) :
    reactByte b now s =
      if b = s.cfg.marker then execHuntMarker b now s
      else if b = lineTerm then execHuntEol b now s else execHuntText b now s := by
  rw [reactByte, hp]

theorem reactByte_of_line {s : State} (hp : s.phase = .line) (b : Byte) (now : Time) :
    reactByte b now s = if b = lineTerm then execLineEol b now s else execLineText b now s := by
  rw [reactByte, hp]

theorem reactByte_of_len0 {s : State} (hp : s.phase = .len0) (b : Byte) (now : Time) :
    reactByte b now s = execLenLo b now s := by
  rw [reactByte, hp]

theorem reactByte_of_len1 {s : State} (hp : s.phase = .len1) (b : Byte) (now : Time) :
    reactByte b now s = if s.lenAdmitted b then execLenHi b now s else execLenHiOob b now s := by
  rw [reactByte, hp]

theorem reactByte_of_payload {s : State} (hp : s.phase = .payload) (b : Byte) (now : Time) :
    reactByte b now s = execPayByte b now s := by
  rw [reactByte, hp]

theorem reactByte_of_check {s : State} (hp : s.phase = .check) (b : Byte) (now : Time) :
    reactByte b now s = execChkByte b now s := by
  rw [reactByte, hp]

theorem reactByte_of_skip {s : State} (hp : s.phase = .skip) (b : Byte) (now : Time) :
    reactByte b now s = execSkipByte b now s := by
  rw [reactByte, hp]

/-! ### A reaction neither reads nor writes the events presented after it -/

/-- The same outcome with other events presented. -/
def withInput (rest : List Event) : Result → Result
  | .next s => .next { s with input := rest }
  | .fault f => .fault f
  | .refused r => .refused r

theorem endAttempt_withInput (now : Time) (s : State) (rest : List Event) :
    endAttempt now { s with input := rest } = { endAttempt now s with input := rest } := by
  rw [endAttempt_eq, endAttempt_eq]
  rfl

theorem judge_withInput (s : State) (rest : List Event) (x : Except DecodeError Record) :
    judge { s with input := rest } x = { judge s x with input := rest } := by
  cases x with
  | error e => rfl
  | ok r =>
    simp only [judge]
    split_ifs <;> rfl

theorem reactTimeout_withInput (now : Time) (s : State) (rest : List Event) :
    reactTimeout now { s with input := rest } = withInput rest (reactTimeout now s) := by
  rw [reactTimeout_eq, reactTimeout_eq]
  rfl

theorem execChkByte_withInput (b : Byte) (now : Time) (s : State) (rest : List Event) :
    execChkByte b now { s with input := rest } = withInput rest (execChkByte b now s) := by
  have hread : memRead { s with input := rest } 0 s.len.toNat = memRead s 0 s.len.toNat := rfl
  rw [execChkByte, execChkByte, hread]
  cases memRead s 0 s.len.toNat with
  | error f => rfl
  | ok p => simp only [withInput, judge_withInput, endAttempt_withInput]

theorem execPayByte_withInput (b : Byte) (now : Time) (s : State) (rest : List Event) :
    execPayByte b now { s with input := rest } = withInput rest (execPayByte b now s) := by
  have hwrite : memWrite { s with input := rest } s.cnt.toNat b = memWrite s s.cnt.toNat b := rfl
  rw [execPayByte, execPayByte, hwrite]
  cases memWrite s s.cnt.toNat b <;> rfl

theorem execSkipByte_withInput (b : Byte) (now : Time) (s : State) (rest : List Event) :
    execSkipByte b now { s with input := rest } = withInput rest (execSkipByte b now s) := by
  simp only [execSkipByte]
  split_ifs
  · rfl
  · exact congrArg Host.Outcome.next (endAttempt_withInput now { s with cnt := 0 } rest)
  · rfl

theorem reactByte_withInput (b : Byte) (now : Time) (s : State) (rest : List Event) :
    reactByte b now { s with input := rest } = withInput rest (reactByte b now s) := by
  obtain ⟨p, hp⟩ : ∃ p, s.phase = p := ⟨_, rfl⟩
  have hp' : State.phase { s with input := rest } = p := hp
  cases p with
  | len0 => rw [reactByte_of_len0 hp, reactByte_of_len0 hp']; rfl
  | payload => rw [reactByte_of_payload hp, reactByte_of_payload hp', execPayByte_withInput]
  | check => rw [reactByte_of_check hp, reactByte_of_check hp', execChkByte_withInput]
  | skip => rw [reactByte_of_skip hp, reactByte_of_skip hp', execSkipByte_withInput]
  | hunt =>
    rw [reactByte_of_hunt hp, reactByte_of_hunt hp']
    split_ifs
    · rfl
    · exact congrArg Host.Outcome.next (endAttempt_withInput now (s.emit _) rest)
    · rfl
  | line =>
    rw [reactByte_of_line hp, reactByte_of_line hp']
    split_ifs
    · exact congrArg Host.Outcome.next (endAttempt_withInput now (s.emit _) rest)
    · rfl
  | len1 =>
    have hadm : State.lenAdmitted { s with input := rest } b = s.lenAdmitted b := rfl
    rw [reactByte_of_len1 hp, reactByte_of_len1 hp', hadm]
    split_ifs <;> rfl

theorem react_withInput (e : Event) (s : State) (rest : List Event) :
    react e { s with input := rest } = withInput rest (react e s) := by
  cases e with
  | start cfg now => simp only [react, execStart]; split_ifs <;> rfl
  | fail now | stopReq now => simp only [react]; split_ifs <;> rfl
  | timeout now =>
    simp only [react]
    split_ifs
    · exact reactTimeout_withInput now s rest
    · rfl
  | byte b now =>
    simp only [react]
    split_ifs
    · exact reactByte_withInput b now s rest
    · rfl

theorem input_of_react {e : Event} {s t : State} (h : react e s = .next t) : t.input = s.input := by
  have hframe : react e s = withInput s.input (react e s) := react_withInput e s s.input
  rw [h] at hframe
  have ht : t = { t with input := s.input } := Host.Outcome.next.inj hframe
  rw [ht]

/-- Outside a session every event but START leaves the state as it is (R180). -/
theorem react_of_life_ne_run {e : Event} {s : State} (hl : s.life ≠ .run) (he : e.isStart = false) :
    react e s = .next s := by
  cases e with
  | start cfg now => cases he
  | fail now | stopReq now | timeout now | byte b now => exact if_neg hl

/-! ### Capacities -/

theorem distinctCount_eq (ids : List SourceId) : distinctCount ids = ids.dedup.length := by
  induction ids with
  | nil => rfl
  | cons x xs ih =>
    rw [distinctCount]
    split_ifs with hx
    · rw [List.dedup_cons_of_mem hx, ih]
    · rw [List.dedup_cons_of_notMem hx, List.length_cons, ih]

theorem fits_iff {n : Nat} {capacity : Option Nat} : fits n capacity = true ↔ ∀ c, capacity = some c → n ≤ c := by
  cases capacity <;> simp [fits]

/-! ### What a read needs -/

theorem Memory.cell_of_gather {m : Memory} {a n i : Nat} {p : List Byte} (h : m.gather a n = some p) (hi : i < n) :
    m.cell (a + i) = p[i]? := by
  induction n generalizing p with
  | zero => omega
  | succ n ih =>
    rw [Memory.gather_succ] at h
    obtain ⟨q, hq, hmap⟩ := Option.bind_eq_some_iff.mp h
    obtain ⟨v, hv, rfl⟩ := Option.map_eq_some_iff.mp hmap
    have hlen := Memory.length_gather hq
    rcases Nat.lt_succ_iff_lt_or_eq.mp hi with hlt | rfl
    · rw [ih hq hlt, List.getElem?_append_left (by omega)]
    · rw [hv, ← hlen, List.getElem?_concat_length]

theorem Memory.gather_eq_none {m : Memory} {n a : Nat} (ha : a < n) (hc : m.cell a = none) : m.gather 0 n = none := by
  cases hg : m.gather 0 n with
  | none => rfl
  | some p =>
    have hlen := Memory.length_gather hg
    have hcell := Memory.cell_of_gather hg ha
    rw [Nat.zero_add, hc, List.getElem?_eq_getElem (by omega)] at hcell
    cases hcell

end Sys2Proof.Machine
end

section
/-! The obligations about the step, the event rows and the operations performed on their own (00_scope R6, 44_system
R175 to R182, 30_encoding R79, R90, 42_filter R154). -/

namespace Sys2Proof.Machine

/-- Settles O1: the two cases of the input. -/
theorem stepRunsSelectedOperation : Obligations.StepRunsSelectedOperation := by
  refine fun s => ⟨fun hin => by rw [step, hin], fun e rest i hin hop => ?_⟩
  simp only [step, hin, hop]

theorem exec_instr (e : Event) (s : State) : exec e.instr s = react e s := by
  cases e <;> rfl

/-- Settles O7: both are the reaction to the event. -/
theorem eventReactionIsSelectedOperation : Obligations.EventReactionIsSelectedOperation := fun s e => by
  rw [exec_instr, exec_operationOf]

/-- Settles O8, by induction on the events: a step reacts to the first of them and leaves the rest alone. -/
theorem runIsFoldOfReactions : Obligations.RunIsFoldOfReactions := by
  intro es rest
  induction es with
  | nil => exact fun _ => rfl
  | cons e es ih =>
    intro s
    have hstep : step { s with input := e :: es ++ rest } = withInput (es ++ rest) (react e { s with input := rest }) :=
      (step_eq_react rfl).trans (react_withInput e { s with input := rest } (es ++ rest))
    rw [List.length_cons, stepTimes, runEvents, hstep]
    cases hr : react e { s with input := rest } with
    | fault f | refused r => rfl
    | next t =>
      obtain rfl : t.input = rest := input_of_react hr
      exact ih t

/-- Settles O14: START by the capacities, the others by the session and the phase. -/
theorem eventRowsComplete : Obligations.EventRowsComplete := by
  refine fun s cfg now => ⟨?_, ?_, ?_, ?_⟩
  · change execStart cfg now s = _
    rw [execStart]
    split_ifs <;> rfl
  · change react (.fail now) s = _
    rw [react]
    split_ifs <;> rfl
  · change react (.stopReq now) s = _
    rw [react]
    split_ifs <;> rfl
  · change react (.timeout now) s = _
    rw [react, reactTimeout_eq, timeoutReport]
    split_ifs <;> rfl

/-- Settles O50: outside a session the reaction changes nothing. -/
theorem endedSessionIsAbsorbing : Obligations.EndedSessionIsAbsorbing := by
  intro s e rest hover hin he
  have hl : s.life ≠ .run := by rcases hover with h | h <;> simp [h]
  rw [step_eq_react hin, react_of_life_ne_run (s := { s with input := rest }) hl he]

/-- Settles O10: START's second branch, and each capacity as a bound. -/
theorem startBeyondCapacityKeepsState : Obligations.StartBeyondCapacityKeepsState := by
  refine fun s cfg now => ⟨fun h => if_neg (by simp [h]), ?_⟩
  rw [admits, Bool.and_eq_true, fits_iff, fits_iff, distinctCount_eq]

/-- Settles O25: the test of each access that fails. -/
theorem bufferBreachesFault : Obligations.BufferBreachesFault := by
  refine fun s b now => ⟨fun h => ?_, fun h => ?_, fun h ⟨a, ha, hc⟩ => ?_, fun h => ?_⟩
  · change execPayByte b now s = _
    rw [execPayByte, memWrite, if_neg (not_lt.mpr h)]
  · change execChkByte b now s = _
    rw [execChkByte, memRead, if_neg (by omega), if_pos (by omega)]
  · change execChkByte b now s = _
    rw [execChkByte, memRead, if_neg (by omega), if_neg (by omega), Memory.gather_eq_none ha hc]
  · exact if_pos (BitVec.eq_of_toNat_eq h)

/-- Settles O28: DECODE by its two kinds of result, FILTER by membership. -/
theorem functionsReturnTheirResult : Obligations.FunctionsReturnTheirResult := by
  refine fun s p c now src => ⟨?_, fun h => ?_, fun h => ?_⟩
  · change execDecode p c now s = _
    rw [execDecode]
    cases decodeFrame p c now <;> rfl
  · change execFilter src s = _
    rw [execFilter, filterSource_iff.mpr h]
  · change execFilter src s = _
    rw [execFilter, Bool.eq_false_iff.mpr (mt filterSource_iff.mp h)]

/-- Settles O43: the stores are empty and no session runs. -/
theorem powerOnIsOffAndUnwritten : Obligations.PowerOnIsOffAndUnwritten :=
  ⟨rfl, fun _ => rfl, ⟨Memory.wf_nil, nofun, RateWf.nil, nofun⟩, nofun⟩

end Sys2Proof.Machine
end

section
/-! SUPPORT. The invariants of 10_state R38 row by row, what keeps them, and why no reaction stops where they hold. -/

namespace Sys2Proof.Machine

/-! ### The table of R38 by the phase -/

/-- The row of R38's table for a phase. -/
def PhaseRow (s : State) : Phase → Prop
  | .hunt => ClearFrame s
  | .line => LineOpen s
  | .len0 => ClearFrame s
  | .len1 => LowLengthHeld s
  | .payload => FrameHeld s ∧ s.cnt.toNat < s.len.toNat
  | .check => FrameHeld s ∧ s.cnt.toNat = s.len.toNat
  | .skip => SkipHeld s

theorem phaseInv_iff {s : State} {p : Phase} (hp : s.phase = p) : PhaseInv s ↔ PhaseRow s p := by
  cases p <;> simp [PhaseInv, PhaseRow, hp]

/-- While an attempt is in flight the invariants are the stores' form and the row of the phase. -/
theorem inv_of_row {s : State} {p : Phase} (hw : StoresWf s) (hp : s.phase = p) (hne : p ≠ .hunt)
    (hrow : PhaseRow s p) : Inv s :=
  ⟨hw, fun _ => ⟨(phaseInv_iff hp).mpr hrow, fun _ h => hne (hp.symm.trans h)⟩⟩

/-- The row that holds in a session. -/
theorem Inv.row {s : State} (h : Inv s) (hl : s.life = .run) {p : Phase} (hp : s.phase = p) : PhaseRow s p :=
  (phaseInv_iff hp).mp (h.2 hl).1

/-! ### The stores -/

/-- An attempt end reports and flushes; the stores stay canonical. -/
theorem inv_afterAttempt {s : State} (now : Time) (os : List Output) (h : StoresWf s) :
    Inv (afterAttempt now os s) := by
  rw [← endAttempt_emit]
  exact inv_endAttempt now h

/-- METER.INC counts an allowed source. -/
theorem StoresWf.meterInc {s : State} {src : SourceId} (h : StoresWf s)
    (hsrc : filterSource s.cfg.allow src = true) : StoresWf (Machine.meterInc src s) := by
  obtain ⟨hp, hb, hr, ha⟩ := h
  refine ⟨hp, hb, hr.meterInc, fun e he => ?_⟩
  rcases mem_storeBy he with rfl | he
  · exact hsrc
  · exact ha e he

theorem StoresWf.judge {s : State} (h : StoresWf s) (x : Except DecodeError Record) : StoresWf (Machine.judge s x) := by
  cases x with
  | error e => exact h
  | ok r =>
    rw [Machine.judge]
    split_ifs with hr
    · exact h.meterInc hr
    · exact h

/-- PAY.BYTE writes a cell of the buffer. -/
theorem StoresWf.set {s : State} {a : Nat} {b : Byte} (h : StoresWf s) (ha : a < s.cfg.maxPayload.toNat) :
    StoresWf { s with pbuf := s.pbuf.set a b } := by
  obtain ⟨hp, hb, hr, hs⟩ := h
  refine ⟨hp.set a b, fun c hc => ?_, hr, hs⟩
  rcases Memory.mem_set hc with rfl | hc
  · exact ha
  · exact hb c hc

/-! ### Counts as numbers -/

theorem cnt_add_one_toNat {c : BitVec 17} (h : c.toNat < 65536) : (c + 1).toNat = c.toNat + 1 := by
  rw [BitVec.toNat_add, show (1 : BitVec 17).toNat = 1 from rfl, Nat.mod_eq_of_lt (by omega)]

theorem zext_add_one_toNat (l : Half) : (zext 17 l + 1).toNat = l.toNat + 1 := by
  have hl := l.isLt
  rw [zext_add_one_eq_ofNat, BitVec.toNat_ofNat, Nat.mod_eq_of_lt (by omega)]

theorem cnt_sub_one_toNat {c : BitVec 17} (h : c ≠ 0) : (c - 1).toNat = c.toNat - 1 := by
  have hpos : 1 ≤ c.toNat := Nat.one_le_iff_ne_zero.mpr fun h0 => h (BitVec.eq_of_toNat_eq h0)
  exact BitVec.toNat_sub_of_le hpos

/-- A zero-extended byte has nothing in its high half. -/
theorem zext_extractLsb'_high (b : Byte) : (zext 16 b).extractLsb' 8 8 = (0 : Byte) := by
  refine BitVec.eq_of_getLsbD_eq fun i hi => ?_
  simp [zext]

/-- The bounds hold of a length that is not above the payload maximum. -/
theorem le_max_of_lenInBounds {lo hi l : Half} (h : lenInBounds lo hi l = true) : l.toNat ≤ hi.toNat :=
  (of_decide_eq_true h).2

/-! ### Every operation keeps the invariants -/

/-- A byte stored extends the checked part of the payload. -/
theorem frameHeld_payByte {s : State} {b : Byte} {p : Phase} (h : FrameHeld s)
    (hc : s.cnt.toNat < s.len.toNat) :
    FrameHeld { s with pbuf := s.pbuf.set s.cnt.toNat b, xorAcc := s.xorAcc ^^^ b, cnt := s.cnt + 1, phase := p } := by
  obtain ⟨hlen, hxor, hlbuf⟩ := h
  obtain ⟨q, hq, hx⟩ := Option.map_eq_some_iff.mp hxor
  have hlt := s.len.isLt
  have hnext := Memory.gather_set_next (v := b) hq
  rw [Nat.zero_add] at hnext
  refine ⟨hlen, ?_, hlbuf⟩
  rw [cnt_add_one_toNat (by omega), hnext, Option.map_some, xor8_append_singleton, hx]

/-- A BYTE in a session keeps the invariants, phase by phase. -/
theorem inv_of_byteNext {b : Byte} {now : Time} {s t : State} (h : ByteNext b now s t) (hi : Inv s)
    (hl : s.life = .run) : Inv t := by
  have hw : StoresWf s := hi.1
  rcases h with ⟨hp, _, rfl⟩ | ⟨_, _, _, rfl⟩ | ⟨hp, hm, hb, rfl⟩ | ⟨_, _, rfl⟩ | ⟨hp, hb, rfl⟩ | ⟨hp, rfl⟩ |
    ⟨hp, hb, rfl⟩ | ⟨hp, hb, rfl⟩ | ⟨hp, hb, rfl⟩ | ⟨_, p, _, rfl⟩ | ⟨_, _, rfl⟩ | ⟨hp, h0, h1, rfl⟩
  · exact inv_of_row hw rfl (by simp) (hi.row hl hp)
  · exact inv_afterAttempt now _ hw
  · -- HUNT.TEXT opens a line
    obtain ⟨hlen, hcnt, hxor, _⟩ := hi.row hl hp
    refine inv_of_row hw (p := .line) rfl (by simp) ⟨by simp, ?_, ?_, hlen, hcnt, hxor⟩
    · simpa using Ne.symm hb
    · simpa using hm
  · exact inv_afterAttempt now _ hw
  · -- LINE.TEXT extends it
    obtain ⟨hne, hterm, hhead, hlen, hcnt, hxor⟩ := hi.row hl hp
    refine inv_of_row hw (p := .line) hp (by simp) ⟨by simp, ?_, ?_, hlen, hcnt, hxor⟩
    · simpa using ⟨hterm, Ne.symm hb⟩
    · rw [List.head?_append_of_ne_nil _ hne]
      exact hhead
  · -- LEN.LO
    obtain ⟨_, hcnt, hxor, hlbuf⟩ := hi.row hl hp
    exact inv_of_row hw (p := .len1) rfl (by simp) ⟨zext_extractLsb'_high b, hcnt, hxor, hlbuf⟩
  · -- LEN.HI: no byte is stored yet
    obtain ⟨_, _, _, hlbuf⟩ := hi.row hl hp
    by_cases hL : 1 ≤ (s.declaredLen b).toNat
    · exact inv_of_row hw (p := .payload) (if_pos hL) (by simp) ⟨⟨hb, rfl, hlbuf⟩, hL⟩
    · exact inv_of_row hw (p := .check) (if_neg hL) (by simp)
        ⟨⟨hb, rfl, hlbuf⟩, (Nat.lt_one_iff.mp (not_le.mp hL)).symm⟩
  · -- LEN.HI.OOB
    obtain ⟨_, _, hxor, hlbuf⟩ := hi.row hl hp
    have hcnt := zext_add_one_toNat (s.declaredLen b)
    exact inv_of_row hw (p := .skip) rfl (by simp)
      ⟨hb, hcnt.symm ▸ Nat.le_add_left 1 _, hcnt.le, hxor, hlbuf⟩
  · -- PAY.BYTE: the last one opens the check
    obtain ⟨hf, hc⟩ := hi.row hl hp
    have hmax := s.cfg.maxPayload.isLt
    have hcnt := cnt_add_one_toNat (c := s.cnt) (by omega)
    have hw' := hw.set (b := b) hb
    by_cases hlast : (s.cnt + 1).toNat = s.len.toNat
    · exact inv_of_row hw' (p := .check) (if_pos hlast) (by simp) ⟨frameHeld_payByte hf hc, hlast⟩
    · exact inv_of_row hw' (p := .payload) ((if_neg hlast).trans hp) (by simp)
        ⟨frameHeld_payByte hf hc, by show (s.cnt + 1).toNat < s.len.toNat; omega⟩
  · exact inv_endAttempt now (hw.judge _)
  · exact inv_afterAttempt now _ hw
  · -- SKIP.BYTE with more to skip
    obtain ⟨hlen, hpos, hle, hxor, hlbuf⟩ := hi.row hl hp
    have hcnt := cnt_sub_one_toNat h0
    have h1' : s.cnt.toNat ≠ 1 := fun h => h1 (BitVec.eq_of_toNat_eq h)
    exact inv_of_row hw (p := .skip) hp (by simp)
      ⟨hlen, by show 1 ≤ (s.cnt - 1).toNat; omega, by show (s.cnt - 1).toNat ≤ s.len.toNat + 1; omega, hxor, hlbuf⟩

/-- Every reaction keeps the invariants. -/
theorem inv_of_reactNext {e : Event} {s t : State} (h : ReactNext e s t) (hi : Inv s) : Inv t := by
  rcases h with ⟨cfg, now, _, rfl | rfl⟩ | ⟨_, _, rfl⟩ |
    ⟨hl, ⟨now, _, rfl⟩ | ⟨now, _, hp, rfl⟩ | ⟨now, _, hp, rfl⟩ | ⟨now, _, rfl⟩ | ⟨b, now, _, hb⟩⟩
  · exact hi
  · -- START: empty stores, HUNT
    exact ⟨⟨Memory.wf_nil, nofun, RateWf.nil, nofun⟩, fun _ => ⟨(phaseInv_iff rfl).mpr ⟨rfl, rfl, rfl, rfl⟩, nofun⟩⟩
  · exact hi
  · exact ⟨hi.1, nofun⟩
  · exact ⟨hi.1, nofun⟩
  · -- STOP.PEND, outside HUNT
    exact ⟨hi.1, fun _ => ⟨(hi.2 hl).1, fun _ => hp⟩⟩
  · exact inv_afterAttempt now _ hi.1
  · exact inv_of_byteNext hb hi hl

/-! ### No reaction stops where the invariants hold -/

/-- A byte in a session: PAYLOAD has room for it, CHECK has the payload written, SKIP has a byte to go. -/
theorem reactByte_completes {s : State} (b : Byte) (now : Time) (hi : Inv s) (hl : s.life = .run) :
    ∃ t, reactByte b now s = .next t := by
  obtain ⟨p, hp⟩ : ∃ p, s.phase = p := ⟨_, rfl⟩
  cases p with
  | hunt =>
    rw [reactByte_of_hunt hp]
    split_ifs <;> exact ⟨_, rfl⟩
  | line =>
    rw [reactByte_of_line hp]
    split_ifs <;> exact ⟨_, rfl⟩
  | len0 => exact ⟨_, reactByte_of_len0 hp b now⟩
  | len1 =>
    rw [reactByte_of_len1 hp]
    split_ifs <;> exact ⟨_, rfl⟩
  | payload =>
    obtain ⟨⟨hlen, _, _⟩, hc⟩ := hi.row hl hp
    exact ⟨_, (reactByte_of_payload hp b now).trans (exec_payByte b now (hc.trans_le (le_max_of_lenInBounds hlen)))⟩
  | check =>
    obtain ⟨⟨_, hxor, _⟩, hc⟩ := hi.row hl hp
    obtain ⟨q, hq, _⟩ := Option.map_eq_some_iff.mp hxor
    exact ⟨_, (reactByte_of_check hp b now).trans (exec_chkByte b now hc (hc ▸ hq))⟩
  | skip =>
    obtain ⟨_, hpos, _⟩ := hi.row hl hp
    exact ⟨_, (reactByte_of_skip hp b now).trans (exec_skipByte b now hpos)⟩

theorem react_completes {s : State} (e : Event) (hi : Inv s) : ∃ t, react e s = .next t := by
  by_cases hl : s.life = .run
  · cases e with
    | start cfg now =>
      simp only [react, execStart]
      split_ifs <;> exact ⟨_, rfl⟩
    | fail now => exact ⟨_, if_pos hl⟩
    | stopReq now =>
      rw [react, if_pos hl]
      split_ifs <;> exact ⟨_, rfl⟩
    | timeout now => exact ⟨_, react_timeout hl now⟩
    | byte b now =>
      obtain ⟨t, ht⟩ := reactByte_completes b now hi hl
      exact ⟨t, (if_pos hl).trans ht⟩
  · cases e with
    | start cfg now =>
      simp only [react, execStart]
      split_ifs <;> exact ⟨_, rfl⟩
    | fail now | stopReq now | timeout now | byte b now => exact ⟨s, react_of_life_ne_run hl rfl⟩

/-! ### What no byte writes -/

theorem judge_frame (s : State) (x : Except DecodeError Record) :
    (judge s x).stopPending = s.stopPending ∧ (judge s x).ret = s.ret ∧ (judge s x).impl = s.impl ∧
      (judge s x).pbuf = s.pbuf ∧ (judge s x).input = s.input := by
  cases x with
  | error e => exact ⟨rfl, rfl, rfl, rfl, rfl⟩
  | ok r =>
    rw [judge]
    split_ifs <;> exact ⟨rfl, rfl, rfl, rfl, rfl⟩

theorem frame_of_byteNext {b : Byte} {now : Time} {s t : State} (h : ByteNext b now s t) :
    t.stopPending = s.stopPending ∧ t.ret = s.ret ∧ t.impl = s.impl := by
  rcases h with ⟨_, _, rfl⟩ | ⟨_, _, _, rfl⟩ | ⟨_, _, _, rfl⟩ | ⟨_, _, rfl⟩ | ⟨_, _, rfl⟩ | ⟨_, rfl⟩ | ⟨_, _, rfl⟩ |
    ⟨_, _, rfl⟩ | ⟨_, _, rfl⟩ | ⟨_, p, _, rfl⟩ | ⟨_, _, rfl⟩ | ⟨_, _, _, rfl⟩
  pick_goal 10
  · -- CHECK: the frame is judged, then the attempt ends
    obtain ⟨hstop, hret, himpl, _⟩ := judge_frame s (decodeFrame p b now)
    simp [hstop, hret, himpl]
  all_goals exact ⟨rfl, rfl, rfl⟩

/-- No event writes the model's own result and capacities. -/
theorem frame_of_reactNext {e : Event} {s t : State} (h : ReactNext e s t) : t.ret = s.ret ∧ t.impl = s.impl := by
  rcases h with ⟨cfg, now, _, rfl | rfl⟩ | ⟨_, _, rfl⟩ |
    ⟨_, ⟨now, _, rfl⟩ | ⟨now, _, _, rfl⟩ | ⟨now, _, _, rfl⟩ | ⟨now, _, rfl⟩ | ⟨b, now, _, hb⟩⟩
  pick_goal 8
  · exact (frame_of_byteNext hb).2
  all_goals exact ⟨rfl, rfl⟩

end Sys2Proof.Machine
end

section
/-! The obligations about the invariants of 10_state R38. -/

namespace Sys2Proof.Machine

/-- Settles O44: a step is a reaction, and every reaction keeps the invariants. -/
theorem stepKeepsInvariants : Obligations.StepKeepsInvariants := by
  intro s t hi hstep
  obtain ⟨e, rest, _, hreact⟩ := step_next hstep
  exact inv_of_reactNext (s := { s with input := rest }) (react_next hreact) hi

/-- Settles O45: the reaction completes, and it leaves the rest of the input and the model's own fields alone. -/
theorem stepNeverStopsUnderInvariants : Obligations.StepNeverStopsUnderInvariants := by
  intro s e rest hi hin
  obtain ⟨t, ht⟩ := react_completes (s := { s with input := rest }) e hi
  exact ⟨t, (step_eq_react hin).trans ht, input_of_react ht,
    frame_of_reactNext (s := { s with input := rest }) (react_next ht)⟩

/-- Settles O15: the row and the selected operation are both the reaction, which completes. -/
theorem byteEventCompletesUnderInvariants : Obligations.ByteEventCompletesUnderInvariants := by
  intro s b now hi
  obtain ⟨t, ht⟩ := react_completes (.byte b now) hi
  refine ⟨t, ht, (exec_operationOf s _).trans ht, fun hl => ?_, cfg_eq_of_reactNext (react_next ht) rfl, ?_,
    input_of_react ht, (frame_of_reactNext (react_next ht)).1⟩
  · exact Host.Outcome.next.inj (ht.symm.trans (react_of_life_ne_run hl rfl))
  · by_cases hl : s.life = .run
    · exact (frame_of_byteNext (reactByte_next ((if_pos hl).symm.trans ht))).1
    · rw [Host.Outcome.next.inj (ht.symm.trans (react_of_life_ne_run hl rfl))]

end Sys2Proof.Machine
end

section
/-! SUPPORT. What a reaction does to the outputs, `life`, the meter and the reject count, said once: it starts a
session, does nothing to them, adds one output of its own, or ends an attempt (40_scanner R117, 20_memory R63). -/

namespace Sys2Proof.Machine

/-! ### The report an attempt ends with -/

theorem operationOf_byte {s : State} (hl : s.life = .run) (b : Byte) (now : Time) :
    operationOf s (.byte b now) = byteOperation s b now := if_neg (not_not.mpr hl)

theorem operationOf_timeout {s : State} (hl : s.life = .run) (now : Time) :
    operationOf s (.timeout now) = timeoutOperation s now := if_neg (not_not.mpr hl)

theorem operationOf_check {s : State} (hl : s.life = .run) (hp : s.phase = .check) (b : Byte) (now : Time) :
    operationOf s (.byte b now) = .chkByte b now := by
  rw [operationOf_byte hl, byteOperation, hp]

/-- An attempt that event `e` ends in `s` has reported `os` and goes to its end from `u`: nothing; one error, by an
operation R200 names for it; an accepted record, counted; a foreign source, counted as rejected. -/
inductive AttemptReport (e : Event) (s : State) : List Output → State → Prop
  | silent : AttemptReport e s [] s
  | error {o : Output} {n : ErrorName} (hn : o.errorName = some n) (hne : n ≠ .sourceNotAllowed)
      (hr : raisedBy n (operationOf s e) = true) : AttemptReport e s [o] s
  | accepted {b : Byte} {now : Time} {p : List Byte} {r : Record} (he : e = .byte b now) (hp : s.phase = .check)
      (hread : memRead s 0 s.len.toNat = .ok p) (hdec : decodeFrame p b now = .ok r)
      (hallow : filterSource s.cfg.allow r.source = true) :
      AttemptReport e s [.frameAccepted, .record r] (meterInc r.source s)
  | rejected {r : Record} (hr : raisedBy .sourceNotAllowed (operationOf s e) = true) :
      AttemptReport e s [.frameDropped (.sourceNotAllowed r.source)] { s with rejCount := satInc s.rejCount }

/-- A reaction's effect. -/
inductive Effect (e : Event) (s t : State) : Prop
  | started {cfg : Config} {now : Time} (he : e = .start cfg now)
      (ht : t = { s with cfg := cfg, life := .run, phase := .hunt, len := 0, cnt := 0, xorAcc := 0, pbuf := [],
                         lbuf := [], rate := [], lastFlush := now, stopPending := false, rejCount := 0 })
  | quiet (hout : t.out = s.out) (hlife : t.life = s.life) (hrate : t.rate = s.rate)
      (hlast : t.lastFlush = s.lastFlush) (hrej : t.rejCount = s.rejCount)
  | failed {now : Time} (he : e = .fail now) (hl : s.life = .run)
      (ht : t = { s with life := .failed, out := s.out ++ [.fatal .byteSourceFailure] })
  | stopped {now : Time} (he : e = .stopReq now) (hl : s.life = .run) (hp : s.phase = .hunt)
      (ht : t = { s with life := .stopped, out := s.out ++ [.stopped] })
  | outOfBounds {b : Byte} (hl : s.life = .run)
      (hr : raisedBy .lengthOutOfBounds (operationOf s e) = true)
      (ht : t = { s with len := s.declaredLen b, cnt := zext 17 (s.declaredLen b) + 1, phase := .skip,
                         out := s.out ++ [.frameDropped (.lengthOutOfBounds (s.declaredLen b))] })
  | ended {os : List Output} {u : State} (hl : s.life = .run) (h : AttemptReport e s os u)
      (ht : t = afterAttempt e.now os u)

/-- A TIMEOUT reports by its phase (R200). -/
theorem attemptReport_timeout {s : State} (hl : s.life = .run) (now : Time) :
    AttemptReport (.timeout now) s (timeoutReport s) s := by
  have hop := operationOf_timeout hl now
  obtain ⟨p, hp⟩ : ∃ p, s.phase = p := ⟨_, rfl⟩
  rw [timeoutOperation, hp] at hop
  rw [timeoutReport, hp]
  cases p with
  | skip => exact .silent
  | hunt => exact .error (n := .transportTimeout) rfl (by decide) (by rw [hop]; rfl)
  | line => exact .error (n := .framingDesync) rfl (by decide) (by rw [hop]; rfl)
  | len0 | len1 | payload | check => exact .error (n := .truncatedFrame) rfl (by decide) (by rw [hop]; rfl)

/-- The checksum byte reports what the stored payload decodes to (R136, R151). -/
theorem effect_judge {s : State} {b : Byte} {now : Time} {p : List Byte} (hl : s.life = .run) (hp : s.phase = .check)
    (hread : memRead s 0 s.len.toNat = .ok p) :
    Effect (.byte b now) s (endAttempt now (judge s (decodeFrame p b now))) := by
  have hop := operationOf_check hl hp b now
  cases hdec : decodeFrame p b now with
  | error x =>
    rw [endAttempt_judge_error]
    cases x with
    | checksumMismatch x y => exact .ended hl (.error (n := .checksumMismatch) rfl (by decide) (by rw [hop]; rfl)) rfl
    | headerError => exact .ended hl (.error (n := .headerError) rfl (by decide) (by rw [hop]; rfl)) rfl
    | payloadLengthError =>
      exact .ended hl (.error (n := .payloadLengthError) rfl (by decide) (by rw [hop]; rfl)) rfl
  | ok r =>
    by_cases hr : filterSource s.cfg.allow r.source = true
    · rw [endAttempt_judge_allowed now hr]
      exact .ended hl (.accepted rfl hp hread hdec hr) rfl
    · rw [endAttempt_judge_foreign now hr]
      exact .ended hl (.rejected (by rw [hop]; rfl)) rfl

theorem effect_of_byteNext {b : Byte} {now : Time} {s t : State} (hl : s.life = .run) (h : ByteNext b now s t) :
    Effect (.byte b now) s t := by
  have hop := operationOf_byte hl b now
  rw [byteOperation] at hop
  rcases h with ⟨_, _, rfl⟩ | ⟨hp, hm, hb, rfl⟩ | ⟨_, _, _, rfl⟩ | ⟨hp, hb, rfl⟩ | ⟨_, _, rfl⟩ | ⟨_, rfl⟩ |
    ⟨_, _, rfl⟩ | ⟨hp, hb, rfl⟩ | ⟨_, _, rfl⟩ | ⟨hp, p, hread, rfl⟩ | ⟨_, _, rfl⟩ | ⟨_, _, _, rfl⟩
  · exact .quiet rfl rfl rfl rfl rfl
  · -- HUNT.EOL
    simp only [hp, if_neg hm, if_pos hb] at hop
    exact .ended hl (.error (n := .framingDesync) rfl (by decide) (by rw [hop]; rfl)) rfl
  · exact .quiet rfl rfl rfl rfl rfl
  · -- LINE.EOL
    simp only [hp, if_pos hb] at hop
    exact .ended hl (.error (n := .framingDesync) rfl (by decide) (by rw [hop]; rfl)) rfl
  · exact .quiet rfl rfl rfl rfl rfl
  · exact .quiet rfl rfl rfl rfl rfl
  · exact .quiet rfl rfl rfl rfl rfl
  · -- LEN.HI.OOB
    simp only [hp, if_neg (of_decide_eq_false hb)] at hop
    exact .outOfBounds hl (by rw [hop]; rfl) rfl
  · exact .quiet rfl rfl rfl rfl rfl
  · exact effect_judge hl hp hread
  · exact .ended hl .silent rfl
  · exact .quiet rfl rfl rfl rfl rfl

/-- Every reaction has one of the six effects. -/
theorem effect_of_reactNext {e : Event} {s t : State} (h : ReactNext e s t) : Effect e s t := by
  rcases h with ⟨cfg, now, he, rfl | ht⟩ | ⟨_, _, rfl⟩ |
    ⟨hl, ⟨now, he, ht⟩ | ⟨now, he, hp, ht⟩ | ⟨now, _, _, rfl⟩ | ⟨now, rfl, rfl⟩ | ⟨b, now, rfl, hb⟩⟩
  · exact .quiet rfl rfl rfl rfl rfl
  · exact .started he ht
  · exact .quiet rfl rfl rfl rfl rfl
  · exact .failed he hl ht
  · exact .stopped he hl hp ht
  · exact .quiet rfl rfl rfl rfl rfl
  · exact .ended hl (attemptReport_timeout hl now) rfl
  · exact effect_of_byteNext hl hb

/-- A step consumes the first event presented and has its effect. -/
theorem effect_of_step {s t : State} (h : step s = .next t) :
    ∃ e rest, s.input = e :: rest ∧ Effect e { s with input := rest } t := by
  obtain ⟨e, rest, hin, hreact⟩ := step_next h
  exact ⟨e, rest, hin, effect_of_reactNext (react_next hreact)⟩

/-! ### What the report leaves to the attempt end -/

/-- The report writes no more than the rate and the reject count. -/
theorem AttemptReport.frame {e : Event} {s u : State} {os : List Output} (h : AttemptReport e s os u) :
    u.out = s.out ∧ u.life = s.life ∧ u.lastFlush = s.lastFlush ∧ u.cfg = s.cfg ∧ u.stopPending = s.stopPending := by
  cases h <;> exact ⟨rfl, rfl, rfl, rfl, rfl⟩

/-- The outputs added by an attempt's end: its report, then the attempt end's own. -/
theorem AttemptReport.out_afterAttempt {e : Event} {s u : State} {os : List Output} (h : AttemptReport e s os u)
    (now : Time) : (afterAttempt now os u).out = s.out ++ (os ++ attemptOutputs now u) := by
  rw [← List.append_assoc, ← h.frame.1]
  rfl

/-- An attempt end emits a snapshot where the window has elapsed, and `Stopped` (R117). -/
theorem mem_attemptOutputs {now : Time} {s : State} {o : Output} (h : o ∈ attemptOutputs now s) :
    o = .stopped ∨ flushDue now s.lastFlush s.cfg.rateWindowMs = true ∧ o = .rateSnapshot now (snapshot s.rate) := by
  rw [attemptOutputs, List.mem_append, flushOutputs, stopOutputs] at h
  rcases h with h | h
  · split_ifs at h with hdue
    · exact .inr ⟨hdue, List.mem_singleton.mp h⟩
    · cases h
  · split_ifs at h
    · exact .inl (List.mem_singleton.mp h)
    · cases h

/-! ### Why an output is emitted -/

/-- The cause of an output that the reaction from `s` to `t` adds. -/
inductive Emitted (e : Event) (s t : State) : Output → Prop
  | error {o : Output} {n : ErrorName} (hn : o.errorName = some n) (hr : raisedBy n (operationOf s e) = true) :
      Emitted e s t o
  | stopped : Emitted e s t .stopped
  | accepted : Emitted e s t .frameAccepted
  | record {b : Byte} {now : Time} {p : List Byte} {r : Record} (he : e = .byte b now) (hl : s.life = .run)
      (hp : s.phase = .check) (hread : memRead s 0 s.len.toNat = .ok p) (hdec : decodeFrame p b now = .ok r)
      (hallow : filterSource s.cfg.allow r.source = true) : Emitted e s t (.record r)
  | snapshot {counts : List (SourceId × Count)} (hl : s.life = .run) (hphase : t.phase = .hunt)
      (hlast : t.lastFlush = e.now) (hrate : t.rate = [])
      (hdue : s.lastFlush.toNat + s.cfg.rateWindowMs ≤ e.now.toNat) (hne : ∀ x ∈ counts, x.2 ≠ 0) :
      Emitted e s t (.rateSnapshot e.now counts)

theorem AttemptReport.emitted {e : Event} {s t u : State} {os : List Output} (h : AttemptReport e s os u)
    (hl : s.life = .run) {o : Output} (ho : o ∈ os) : Emitted e s t o := by
  cases h with
  | silent => cases ho
  | error hn _ hr => rw [List.mem_singleton.mp ho]; exact .error hn hr
  | rejected hr => rw [List.mem_singleton.mp ho]; exact .error rfl hr
  | accepted he hp hread hdec hallow =>
    simp only [List.mem_cons, List.not_mem_nil, or_false] at ho
    rcases ho with rfl | rfl
    · exact .accepted
    · exact .record he hl hp hread hdec hallow

/-- The attempt end's own outputs. -/
theorem AttemptReport.emitted_end {e : Event} {s u : State} {os : List Output} (h : AttemptReport e s os u)
    (hl : s.life = .run) {o : Output} (ho : o ∈ attemptOutputs e.now u) :
    Emitted e s (afterAttempt e.now os u) o := by
  obtain ⟨_, _, hlast, hcfg, _⟩ := h.frame
  rcases mem_attemptOutputs ho with rfl | ⟨hdue, rfl⟩
  · exact .stopped
  · obtain ⟨hrate, hlast', _⟩ := flush_of_due hdue
    rw [hlast, hcfg] at hdue
    have hwindow := flushDue_iff.mp hdue
    exact .snapshot hl rfl hlast' hrate (by omega) fun x hx => by simpa using (List.mem_filter.mp hx).2

/-- A reaction only adds outputs, each with its cause. -/
theorem emitted_of_effect {e : Event} {s t : State} (h : Effect e s t) :
    ∃ new, t.out = s.out ++ new ∧ ∀ o ∈ new, Emitted e s t o := by
  cases h with
  | started _ ht => exact ⟨[], by simp [ht], nofun⟩
  | quiet hout => exact ⟨[], by simp [hout], nofun⟩
  | @failed now he hl ht =>
    have hop : operationOf s e = .fail now := by rw [he, operationOf, if_neg (not_not.mpr hl)]
    exact ⟨[.fatal .byteSourceFailure], by rw [ht],
      List.forall_mem_singleton.mpr (.error rfl (by rw [hop]; rfl))⟩
  | stopped _ _ _ ht => exact ⟨[.stopped], by rw [ht], List.forall_mem_singleton.mpr .stopped⟩
  | outOfBounds _ hr ht =>
    exact ⟨[.frameDropped (.lengthOutOfBounds _)], by rw [ht], List.forall_mem_singleton.mpr (.error rfl hr)⟩
  | ended hl h ht =>
    subst ht
    exact ⟨_, h.out_afterAttempt _, fun o ho => (List.mem_append.mp ho).elim (h.emitted hl) (h.emitted_end hl)⟩

/-! ### What the report writes -/

/-- The reject count moves with the report of a foreign source, and only with it. -/
theorem AttemptReport.rejCount {e : Event} {s u : State} {os : List Output} (h : AttemptReport e s os u) :
    ((∃ src, .frameDropped (.sourceNotAllowed src) ∈ os) ∧ u.rejCount = satInc s.rejCount) ∨
      ((∀ src, .frameDropped (.sourceNotAllowed src) ∉ os) ∧ u.rejCount = s.rejCount) := by
  cases h with
  | silent => exact .inr ⟨fun _ => List.not_mem_nil, rfl⟩
  | error hn hne =>
    refine .inr ⟨fun src hs => hne ?_, rfl⟩
    rw [← List.mem_singleton.mp hs] at hn
    exact (Option.some.inj hn).symm
  | accepted => exact .inr ⟨fun _ => by simp, rfl⟩
  | rejected => exact .inl ⟨⟨_, List.mem_singleton_self _⟩, rfl⟩

/-- The rate moves with a record only. -/
theorem AttemptReport.rate {e : Event} {s u : State} {os : List Output} (h : AttemptReport e s os u) :
    u.rate = s.rate ∨ ∃ r, .record r ∈ os ∧ u.rate = (meterInc r.source s).rate := by
  cases h with
  | silent | error | rejected => exact .inl rfl
  | accepted => exact .inr ⟨_, by simp, rfl⟩

end Sys2Proof.Machine
end

section
/-! The obligations about what every step keeps of the outputs, `life`, the meter and the counters. -/

namespace Sys2Proof.Machine

/-! ### The fixed order (20_memory R62, R63) -/

/-- A step's own result: at most one report, a record coming with its acceptance. -/
abbrev OwnResult (own : List Output) : Prop :=
  own = [] ∨ own = [.noData] ∨ (∃ x e, own = [.desync x e]) ∨ (∃ r, own = [.frameDropped r]) ∨
    (∃ r, own = [.frameAccepted, .record r]) ∨ own = [.fatal .byteSourceFailure]

theorem ownResult_of_errorName {o : Output} {n : ErrorName} (hn : o.errorName = some n) : OwnResult [o] := by
  cases o with
  | noData => exact .inr (.inl rfl)
  | desync x e => exact .inr (.inr (.inl ⟨x, e, rfl⟩))
  | frameDropped r => exact .inr (.inr (.inr (.inl ⟨r, rfl⟩)))
  | fatal r => cases r; exact .inr (.inr (.inr (.inr (.inr rfl))))
  | frameAccepted | stopped | record r | rateSnapshot w c => cases hn

theorem AttemptReport.ownResult {e : Event} {s u : State} {os : List Output} (h : AttemptReport e s os u) :
    OwnResult os := by
  cases h with
  | silent => exact .inl rfl
  | error hn => exact ownResult_of_errorName hn
  | accepted => exact .inr (.inr (.inr (.inr (.inl ⟨_, rfl⟩))))
  | rejected => exact ownResult_of_errorName rfl

theorem flushOutputs_shape (now : Time) (s : State) :
    flushOutputs now s = [] ∨ ∃ w c, flushOutputs now s = [.rateSnapshot w c] := by
  rw [flushOutputs]
  split_ifs
  · exact .inr ⟨_, _, rfl⟩
  · exact .inl rfl

theorem stopOutputs_shape (s : State) : stopOutputs s = [] ∨ stopOutputs s = [.stopped] := by
  rw [stopOutputs]
  split_ifs
  · exact .inr rfl
  · exact .inl rfl

/-- Settles O46: the parts of the outputs by the step's effect. -/
theorem stepOutputsKeepTheFixedOrder : Obligations.StepOutputsKeepTheFixedOrder := by
  intro s t hstep
  obtain ⟨e, rest, _, heff⟩ := effect_of_step hstep
  cases heff with
  | started _ ht => exact ⟨[], [], [], by simp [ht], .inl rfl, .inl rfl, .inl rfl⟩
  | quiet hout => exact ⟨[], [], [], by simp [hout], .inl rfl, .inl rfl, .inl rfl⟩
  | failed _ _ ht =>
    exact ⟨[.fatal .byteSourceFailure], [], [], by simp [ht], ownResult_of_errorName rfl, .inl rfl, .inl rfl⟩
  | stopped _ _ _ ht => exact ⟨[], [], [.stopped], by simp [ht], .inl rfl, .inl rfl, .inr rfl⟩
  | outOfBounds _ _ ht =>
    exact ⟨[.frameDropped (.lengthOutOfBounds _)], [], [], by rw [ht, List.append_nil, List.append_nil],
      ownResult_of_errorName rfl, .inl rfl, .inl rfl⟩
  | @ended os u _ h ht =>
    refine ⟨os, flushOutputs e.now u, stopOutputs u, ?_, h.ownResult, flushOutputs_shape .., stopOutputs_shape _⟩
    rw [ht, h.out_afterAttempt, attemptOutputs]
    simp

/-! ### Records, snapshots and reports -/

/-- A checksum byte over a payload that decodes to an allowed record emits it (R136). -/
theorem react_accepted {s : State} {b : Byte} {now : Time} {p : List Byte} {r : Record} (hl : s.life = .run)
    (hp : s.phase = .check) (hread : memRead s 0 s.len.toNat = .ok p) (hdec : decodeFrame p b now = .ok r)
    (hallow : filterSource s.cfg.allow r.source = true) :
    react (.byte b now) s = .next (afterAttempt now [.frameAccepted, .record r] (meterInc r.source s)) := by
  rw [react, if_pos hl, reactByte_of_check hp, execChkByte, hread]
  simp only [hdec, endAttempt_judge_allowed now hallow]

/-- Settles O47: a record has its cause, and a checksum byte that accepts emits its record. -/
theorem recordEmittedIffDecodedAndAllowed : Obligations.RecordEmittedIffDecodedAndAllowed := by
  intro s t hstep
  obtain ⟨e, rest, hin, hreact⟩ := step_next hstep
  obtain ⟨new, hout, hnew⟩ := emitted_of_effect (effect_of_reactNext (react_next hreact))
  refine ⟨new, hout, fun r => ⟨fun hr => ?_, ?_⟩⟩
  · cases hnew _ hr with
    | error hn => cases hn
    | record he hl hp hread hdec hallow =>
      exact ⟨_, _, rest, _, he ▸ hin, hl, hp, hread, hdec, filterSource_iff.mp hallow⟩
  · rintro ⟨b, now, rest', p, hin', hl, hp, hread, hdec, hallow⟩
    obtain ⟨rfl, rfl⟩ := List.cons.inj (hin.symm.trans hin')
    have hacc := react_accepted (s := { s with input := rest }) hl hp hread hdec (filterSource_iff.mpr hallow)
    have hout' : t.out = s.out ++ ([.frameAccepted, .record r] ++ attemptOutputs now (meterInc r.source s)) := by
      rw [Host.Outcome.next.inj (hreact.symm.trans hacc), ← List.append_assoc]
      rfl
    rw [List.append_cancel_left (hout.symm.trans hout')]
    simp

/-- Settles O48: a snapshot has its cause, an attempt end whose window has elapsed. -/
theorem snapshotOnlyAtDueAttemptEnd : Obligations.SnapshotOnlyAtDueAttemptEnd := by
  intro s t hstep
  obtain ⟨e, rest, hin, heff⟩ := effect_of_step hstep
  obtain ⟨new, hout, hnew⟩ := emitted_of_effect heff
  refine ⟨new, hout, fun w counts hw => ?_⟩
  cases hnew _ hw with
  | error hn => cases hn
  | snapshot hl hphase hlast hrate hdue hne => exact ⟨⟨e, rest, hin, rfl⟩, hl, hphase, hlast, hrate, hdue, hne⟩

/-- Settles O57: the reject count by the step's effect. -/
theorem rejectCountFollowsReports : Obligations.RejectCountFollowsReports := by
  intro s t e rest hin he hstep
  obtain ⟨e', rest', hin', heff⟩ := effect_of_step hstep
  obtain ⟨rfl, rfl⟩ := List.cons.inj (hin.symm.trans hin')
  cases heff with
  | started hs => rw [hs] at he; cases he
  | quiet hout _ _ _ hrej => exact ⟨[], by simp [hout], nofun, fun _ => hrej⟩
  | failed _ _ ht => exact ⟨[.fatal .byteSourceFailure], by simp [ht], by simp, fun _ => by rw [ht]⟩
  | stopped _ _ _ ht => exact ⟨[.stopped], by simp [ht], by simp, fun _ => by rw [ht]⟩
  | outOfBounds _ _ ht => exact ⟨[.frameDropped (.lengthOutOfBounds _)], by rw [ht], by simp, fun _ => by rw [ht]⟩
  | @ended os u hl h ht =>
    have hrej : t.rejCount = u.rejCount := by rw [ht]; rfl
    refine ⟨_, by rw [ht, h.out_afterAttempt], ?_, ?_⟩
    · rintro ⟨src, hsrc⟩
      have hos := (List.mem_append.mp hsrc).resolve_right (frameDropped_notMem_attemptOutputs _ _ _)
      rcases h.rejCount with ⟨_, hinc⟩ | ⟨hnone, _⟩
      · rw [hrej, hinc, satInc_toNat]
      · exact absurd hos (hnone src)
    · intro hnone
      rcases h.rejCount with ⟨⟨src, hsrc⟩, _⟩ | ⟨_, hsame⟩
      · exact absurd ⟨src, List.mem_append_left _ hsrc⟩ hnone
      · rw [hrej, hsame]

/-- Settles O60: the tables of channels, names and codes entry by entry; a step's reports by its effect. -/
theorem outputsHaveChannelsAndCodes : Obligations.OutputsHaveChannelsAndCodes := by
  refine ⟨fun o => ?_, fun o => ?_, by decide, fun s t hstep => ?_⟩
  · cases o <;> rfl
  · cases o with
    | frameDropped r => cases r <;> rfl
    | fatal r => cases r; rfl
    | noData | desync x e | frameAccepted | stopped | record r | rateSnapshot w c => rfl
  · obtain ⟨e, rest, hin, heff⟩ := effect_of_step hstep
    obtain ⟨new, hout, hnew⟩ := emitted_of_effect heff
    refine ⟨new, hout, fun o ho n hn => ⟨e, rest, hin, ?_⟩⟩
    cases hnew o ho with
    | error hn' hr =>
      obtain rfl := Option.some.inj (hn.symm.trans hn')
      exact hr
    | stopped | accepted | record | snapshot => cases hn

/-! ### Life and the meter -/

/-- Settles O49: `life` by the step's effect. -/
theorem lifeChangesOnlyAsListed : Obligations.LifeChangesOnlyAsListed := by
  intro s t e rest hin hstep hne
  obtain ⟨e', rest', hin', heff⟩ := effect_of_step hstep
  obtain ⟨rfl, rfl⟩ := List.cons.inj (hin.symm.trans hin')
  cases heff with
  | started he ht => exact .inl ⟨_, _, he, by rw [ht]⟩
  | quiet _ hlife => exact absurd hlife hne
  | failed he hl ht => exact .inr ⟨hl, .inl ⟨_, he, by rw [ht]⟩⟩
  | stopped he hl hp ht => exact .inr ⟨hl, .inr (.inl ⟨_, he, hp, by rw [ht]⟩)⟩
  | outOfBounds _ _ ht => exact absurd (by rw [ht]) hne
  | @ended os u hl h ht =>
    obtain ⟨_, hlife, _, _, hstop⟩ := h.frame
    have hafter : t.life = lifeAfter u := by rw [ht]; rfl
    rw [lifeAfter] at hafter
    split_ifs at hafter with hpend
    · exact .inr ⟨hl, .inr (.inr ⟨hstop.symm.trans hpend, by rw [ht]; rfl, hafter⟩)⟩
    · exact absurd (hafter.trans hlife) hne

/-- Settles O55: an attempt end that flushes emits the snapshot; one that does not keeps what the report left. -/
theorem meterStateChangesOnlyByItsOperations : Obligations.MeterStateChangesOnlyByItsOperations := by
  intro s t hstep hne
  obtain ⟨e, rest, hin, heff⟩ := effect_of_step hstep
  cases heff with
  | started he ht => exact .inl ⟨_, _, rest, by rw [hin, he], by rw [ht], by rw [ht]⟩
  | quiet _ _ hrate hlast => exact absurd hne (by simp [hrate, hlast])
  | failed _ _ ht | stopped _ _ _ ht | outOfBounds _ _ ht => exact absurd hne (by simp [ht])
  | @ended os u hl h ht =>
    obtain ⟨_, _, hlast, _, _⟩ := h.frame
    refine .inr ⟨_, by rw [ht, h.out_afterAttempt], ?_⟩
    by_cases hdue : flushDue e.now u.lastFlush u.cfg.rateWindowMs = true
    · obtain ⟨hrate, hlast', hout⟩ := flush_of_due hdue
      exact .inl ⟨e.now, snapshot u.rate, by simp [hout], by rw [ht]; exact hrate, by rw [ht]; exact hlast'⟩
    · obtain ⟨hrate, hlast', _⟩ := flush_of_not_due hdue
      have hr : t.rate = u.rate := by rw [ht]; exact hrate
      have hf : t.lastFlush = s.lastFlush := by rw [ht]; exact hlast'.trans hlast
      rcases h.rate with hsame | ⟨r, hrec, hinc⟩
      · exact absurd hne (by simp [hr, hf, hsame])
      · exact .inr ⟨r, List.mem_append_left _ hrec, hr.trans hinc, hf⟩

/-- After any event `last_flush` is what it was or the event's clock. -/
theorem lastFlush_of_effect {e : Event} {s t : State} (h : Effect e s t) :
    t.lastFlush = s.lastFlush ∨ t.lastFlush = e.now := by
  cases h with
  | started he ht => exact .inr (by rw [ht, he]; rfl)
  | quiet _ _ _ hlast => exact .inl hlast
  | failed _ _ ht | stopped _ _ _ ht | outOfBounds _ _ ht => exact .inl (by rw [ht])
  | @ended os u hl h ht =>
    have hafter : t.lastFlush = lastFlushAfter e.now u := by rw [ht]; rfl
    rw [lastFlushAfter] at hafter
    split_ifs at hafter
    · exact .inr hafter
    · exact .inl (hafter.trans h.frame.2.2.1)

/-! ### The phase and the buffer -/

/-- A byte opens a frame in HUNT only, and only the marker does (R100). -/
theorem enters_len0_of_byteNext {b : Byte} {now : Time} {s t : State} (h : ByteNext b now s t) (ht : t.phase = .len0)
    (hs : s.phase ≠ .len0) : s.phase = .hunt ∧ b = s.cfg.marker := by
  rcases h with ⟨hp, hm, _⟩ | ⟨_, _, _, rfl⟩ | ⟨_, _, _, rfl⟩ | ⟨_, _, rfl⟩ | ⟨_, _, rfl⟩ | ⟨_, rfl⟩ | ⟨_, _, rfl⟩ |
    ⟨_, _, rfl⟩ | ⟨_, _, rfl⟩ | ⟨_, p, _, rfl⟩ | ⟨_, _, rfl⟩ | ⟨_, _, _, rfl⟩
  · exact ⟨hp, hm⟩
  · cases ht
  · cases ht
  · cases ht
  · exact absurd ht hs
  · cases ht
  · -- LEN.HI enters PAYLOAD or CHECK
    dsimp only at ht
    split_ifs at ht
  · cases ht
  · -- PAY.BYTE stays or enters CHECK
    dsimp only at ht
    split_ifs at ht
    exact absurd ht hs
  · rw [endAttempt_phase] at ht
    cases ht
  · cases ht
  · exact absurd ht hs

/-- Settles O52: only a byte in HUNT opens a frame. -/
theorem markerRecognisedOnlyInHunt : Obligations.MarkerRecognisedOnlyInHunt := by
  intro s t hstep ht hs
  obtain ⟨e, rest, hin, hreact⟩ := step_next hstep
  rcases react_next hreact with ⟨cfg, now, _, rfl | rfl⟩ | ⟨_, _, rfl⟩ |
    ⟨hl, ⟨now, _, rfl⟩ | ⟨now, _, _, rfl⟩ | ⟨now, _, _, rfl⟩ | ⟨now, _, rfl⟩ | ⟨b, now, rfl, hb⟩⟩
  · exact absurd ht hs
  · cases ht
  · exact absurd ht hs
  · exact absurd ht hs
  · exact absurd ht hs
  · exact absurd ht hs
  · cases ht
  · obtain ⟨hp, rfl⟩ := enters_len0_of_byteNext hb ht hs
    exact ⟨now, rest, hin, hl, hp⟩

/-- Settles O53: the reaction to a TIMEOUT is an attempt end. -/
theorem timeoutReturnsToHunt : Obligations.TimeoutReturnsToHunt := by
  intro s now rest hl hin
  refine ⟨_, (step_eq_react hin).trans (react_timeout (s := { s with input := rest }) hl now), rfl, rfl, rfl, rfl, rfl,
    fun hstop => ⟨?_, ?_⟩, fun hstop => ?_⟩
  · simp [afterAttempt, lifeAfter, hstop]
  · simp [afterAttempt, attemptOutputs, stopOutputs, hstop]
  · simp [afterAttempt, lifeAfter, hstop, hl]

/-- A byte writes the buffer in PAYLOAD only, at `cnt` (R112). -/
theorem pbuf_of_byteNext {b : Byte} {now : Time} {s t : State} (h : ByteNext b now s t) :
    t.pbuf = s.pbuf ∨ s.phase = .payload ∧ t.pbuf = s.pbuf.set s.cnt.toNat b := by
  rcases h with ⟨_, _, rfl⟩ | ⟨_, _, _, rfl⟩ | ⟨_, _, _, rfl⟩ | ⟨_, _, rfl⟩ | ⟨_, _, rfl⟩ | ⟨_, rfl⟩ | ⟨_, _, rfl⟩ |
    ⟨_, _, rfl⟩ | ⟨hp, _, rfl⟩ | ⟨_, p, _, rfl⟩ | ⟨_, _, rfl⟩ | ⟨_, _, _, rfl⟩
  pick_goal 9
  · exact .inr ⟨hp, rfl⟩
  pick_goal 9
  · obtain ⟨_, _, _, hpbuf, _⟩ := judge_frame s (decodeFrame p b now)
    exact .inl (by rw [endAttempt_pbuf, hpbuf])
  all_goals exact .inl rfl

/-- Settles O56: of the reactions only START and PAY.BYTE write the buffer. -/
theorem bufferWrittenOnlyByPayloadByteAndStart : Obligations.BufferWrittenOnlyByPayloadByteAndStart := by
  intro s t a hstep hne
  obtain ⟨e, rest, hin, hreact⟩ := step_next hstep
  rcases react_next hreact with ⟨cfg, now, rfl, rfl | rfl⟩ | ⟨_, _, rfl⟩ |
    ⟨hl, ⟨now, _, rfl⟩ | ⟨now, _, _, rfl⟩ | ⟨now, _, _, rfl⟩ | ⟨now, _, rfl⟩ | ⟨b, now, rfl, hb⟩⟩
  pick_goal 2
  · exact .inl ⟨cfg, now, rest, hin, rfl⟩
  pick_goal 7
  · rcases pbuf_of_byteNext hb with hsame | ⟨hp, hset⟩
    · exact absurd (by rw [hsame]) hne
    · rw [hset] at hne ⊢
      obtain rfl : a = s.cnt.toNat := by
        by_contra ha
        exact hne (Memory.cell_set_other ha)
      exact .inr ⟨b, now, rest, hin, hl, hp, rfl, Memory.cell_set_same ..⟩
  all_goals exact absurd rfl hne

/-! ### The clock -/

/-- A run that answers a state reacts to its first event and runs on. -/
theorem runEvents_cons_next {e : Event} {es : List Event} {s t : State} (h : runEvents (e :: es) s = .next t) :
    ∃ u, react e s = .next u ∧ runEvents es u = .next t := by
  rw [runEvents] at h
  split at h
  · next u hu => exact ⟨u, hu, h⟩
  · cases h
  · cases h

/-- Settles O58, by induction on the events: each moves `last_flush` at most up to its own clock. -/
theorem lastFlushNeverAheadOfClock : Obligations.LastFlushNeverAheadOfClock := by
  intro es
  induction es with
  | nil =>
    intro s t t0 hle _ hrun
    obtain rfl := Host.Outcome.next.inj hrun
    exact hle
  | cons e es ih =>
    intro s t t0 hle hmono hrun
    obtain ⟨u, hu, hrun⟩ := runEvents_cons_next hrun
    obtain ⟨ht0, hmono⟩ := Bool.and_eq_true_iff.mp hmono
    have hclock := of_decide_eq_true ht0
    have hle' : u.lastFlush.toNat ≤ e.now.toNat := by
      rcases lastFlush_of_effect (effect_of_reactNext (react_next hu)) with h | h <;> rw [h]
      exact hle.trans hclock
    have hlast := ih u t e.now hle' hmono hrun
    rw [List.getLast?_cons]
    cases hes : es.getLast? <;> simpa [hes] using hlast

end Sys2Proof.Machine
end

section
/-! The obligations about what the checksum detects (41_decoder R138, R139). -/

namespace Sys2Proof

/-! ### The exclusive-or of altered bytes -/

/-- A byte altered by `x` alters the exclusive-or by `x`. -/
theorem xor8_set {p : List Byte} {i : Nat} {b : Byte} (x : Byte) (h : p[i]? = some b) :
    xor8 (p.set i (b ^^^ x)) = xor8 p ^^^ x := by
  induction p generalizing i with
  | nil => cases h
  | cons a p ih =>
    cases i with
    | zero =>
      obtain rfl : a = b := by simpa using h
      rw [List.set_cons_zero, xor8_cons, xor8_cons, BitVec.xor_assoc, BitVec.xor_comm x, BitVec.xor_assoc]
    | succ i =>
      rw [List.set_cons_succ, xor8_cons, xor8_cons, ih (by simpa using h), BitVec.xor_assoc]

/-- The exclusive-or of the differences is the difference of the exclusive-ors. -/
theorem xor8_zipWith_xor {p q : List Byte} (h : p.length = q.length) :
    xor8 (List.zipWith (· ^^^ ·) p q) = xor8 p ^^^ xor8 q := by
  induction p generalizing q with
  | nil =>
    obtain rfl : q = [] := List.length_eq_zero_iff.mp h.symm
    simp
  | cons a p ih =>
    cases q with
    | nil => cases h
    | cons b q =>
      rw [List.zipWith_cons_cons, xor8_cons, xor8_cons, xor8_cons, ih (by simpa using h)]
      ac_rfl

/-- A bit of the difference is the parity of the flips in that position. -/
theorem getLsbD_xor8_xor {p q : List Byte} (h : p.length = q.length) (k : Nat) :
    (xor8 p ^^^ xor8 q).getLsbD k =
      decide ((p.zip q).countP (fun x => x.1.getLsbD k != x.2.getLsbD k) % 2 = 1) := by
  rw [← xor8_zipWith_xor h, xor8_getLsbD, ← List.map_uncurry_zip_eq_zipWith, List.countP_map]
  congr 4
  funext x
  exact BitVec.getLsbD_xor

theorem xor_twoPow_ne (c : Byte) (k : Fin 8) : c ^^^ BitVec.twoPow 8 k ≠ c := by
  intro h
  have hbit := congrArg (fun x : Byte => x.getLsbD k) h
  simp at hbit

end Sys2Proof

namespace Sys2Proof.Machine

/-- What decodes has its checksum (R131, R135). -/
theorem xor8_of_decodeFrame {p : List Byte} {c : Byte} {now : Time} {r : Record} (h : decodeFrame p c now = .ok r) :
    xor8 p = c := by
  by_contra hne
  rw [decodeFrame_of_xor8_ne now hne] at h
  cases h

/-- Settles O30: one flipped bit alters the exclusive-or or the checksum by that bit. -/
theorem singleBitFlipIsDetected : Obligations.SingleBitFlipIsDetected := by
  intro p c now r hdec
  have hx := xor8_of_decodeFrame hdec
  refine ⟨hx, fun i k b hb => ?_, fun k => ?_⟩
  · have hflip : xor8 (p.set i (b ^^^ BitVec.twoPow 8 k)) = c ^^^ BitVec.twoPow 8 k := by rw [xor8_set _ hb, hx]
    rw [decodeFrame_of_xor8_ne now (by rw [hflip]; exact xor_twoPow_ne c k), hflip]
  · rw [decodeFrame_of_xor8_ne now (by rw [hx]; exact (xor_twoPow_ne c k).symm), hx]

/-- Settles O31: the two exclusive-ors over payload and checksum are both zero, or differ in a bit of odd parity. -/
theorem undetectedIffEvenFlipsPerBit : Obligations.UndetectedIffEvenFlipsPerBit := by
  intro p q c d hlen hx
  have hdiff : xor8 (p ++ [c]) ^^^ xor8 (q ++ [d]) = xor8 q ^^^ d := by
    rw [xor8_append_singleton, xor8_append_singleton, hx, BitVec.xor_self, BitVec.zero_xor]
  have hparity := getLsbD_xor8_xor (p := p ++ [c]) (q := q ++ [d]) (by simp [hlen])
  rw [hdiff] at hparity
  rw [← BitVec.xor_eq_zero_iff, BitVec.eq_of_getLsbD_eq_iff, Fin.forall_iff]
  refine forall₂_congr fun k _ => ?_
  rw [hparity, BitVec.getLsbD_zero, decide_eq_false_iff_not]
  exact Nat.mod_two_ne_one

end Sys2Proof.Machine
end

section
/-! The obligation about what a window of the Rate Meter reports (43_rate_meter R168). -/

namespace Sys2Proof.Machine

/-! ### What outputs tell of a source's count -/

theorem meters_split {src : SourceId} {os ps : List Output} {k m : Nat} (h : Meters src k (os ++ ps) m) :
    ∃ l, Meters src k os l ∧ Meters src l ps m := by
  induction os generalizing k with
  | nil => exact ⟨k, rfl, h⟩
  | cons o os ih =>
    cases o with
    | rateSnapshot w counts =>
      obtain ⟨l, hos, hps⟩ := ih h.2
      exact ⟨l, ⟨h.1, hos⟩, hps⟩
    | _ =>
      obtain ⟨l, hos, hps⟩ := ih (k := _) h
      exact ⟨l, hos, hps⟩

/-- After a snapshot the count is zero. -/
theorem meters_of_getLast? {src : SourceId} {os : List Output} {k l : Nat} {w : Time}
    {counts : List (SourceId × Count)} (h : Meters src k os l) (hlast : os.getLast? = some (.rateSnapshot w counts)) :
    l = 0 := by
  obtain ⟨init, rfl⟩ := List.getLast?_eq_some_iff.mp hlast
  obtain ⟨_, _, _, hzero⟩ := meters_split h
  exact hzero.symm

/-- Without a snapshot, and below saturation, the count grows by the records of the source. -/
theorem meters_window {src : SourceId} {os : List Output} {k l : Nat} (h : Meters src k os l)
    (hsnap : ∀ o ∈ os, o.isSnapshot = false) (hlt : k + os.countP (Output.isRecordOf src) < 2 ^ 32) :
    l = k + os.countP (Output.isRecordOf src) := by
  induction os generalizing k with
  | nil => exact h.symm
  | cons o os ih =>
    have hsnap' : ∀ o ∈ os, o.isSnapshot = false := fun o ho => hsnap o (List.mem_cons_of_mem _ ho)
    cases o with
    | rateSnapshot w counts => cases hsnap _ (List.mem_cons_self ..)
    | record r =>
      rw [List.countP_cons] at hlt ⊢
      by_cases hsrc : r.source = src
      · simp only [Output.isRecordOf, hsrc, beq_self_eq_true, if_true] at hlt ⊢
        have hmin : min (k + 1) (2 ^ 32 - 1) = k + 1 := by omega
        simp only [Meters, if_pos hsrc, hmin] at h
        rw [ih h hsnap' (by omega)]
        omega
      · have hne : (r.source == src) = false := by simpa using hsrc
        simp only [Output.isRecordOf, hne, Bool.false_eq_true, if_false, Nat.add_zero] at hlt ⊢
        simp only [Meters, if_neg hsrc] at h
        exact ih h hsnap' hlt
    | noData | desync x e | frameDropped r | frameAccepted | stopped | fatal r => exact ih h hsnap' hlt

/-- A run without START, metered. -/
theorem runEvents_meters {es : List Event} {s t : State} (src : SourceId) (hw : RateWf s.rate)
    (he : ∀ e ∈ es, e.isStart = false) (hrun : runEvents es s = .next t) :
    ∃ new, t.out = s.out ++ new ∧ Meters src (rateOf s.rate src).toNat new (rateOf t.rate src).toNat := by
  induction es generalizing s with
  | nil =>
    obtain rfl := Host.Outcome.next.inj hrun
    exact ⟨[], (List.append_nil _).symm, rfl⟩
  | cons e es ih =>
    obtain ⟨u, hu, hrun⟩ := runEvents_cons_next hrun
    obtain ⟨os, hout, hw', hos⟩ := react_meters src (react_next hu) hw (he e (List.mem_cons_self ..))
    obtain ⟨ps, hout', hps⟩ := ih hw' (fun e' h => he e' (List.mem_cons_of_mem _ h)) hrun
    exact ⟨os ++ ps, by rw [hout', hout, List.append_assoc], meters_append hos hps⟩

/-! ### METER.INC again and again -/

/-- `n` METER.INC of a source count it up by `n`, saturating, and touch nothing else. -/
theorem repeatExec_meterInc (src : SourceId) (n : Nat) (s : State) :
    ∃ rate, repeatExec (.meterInc src) n s = .next { s with rate := rate } ∧ (RateWf s.rate → RateWf rate) ∧
      (rateOf rate src).toNat = min ((rateOf s.rate src).toNat + n) (2 ^ 32 - 1) ∧
      ∀ other, other ≠ src → rateOf rate other = rateOf s.rate other := by
  induction n generalizing s with
  | zero =>
    have hlt := (rateOf s.rate src).isLt
    exact ⟨s.rate, rfl, id, by omega, fun _ _ => rfl⟩
  | succ n ih =>
    obtain ⟨rate, hrep, hwf, hsame, hother⟩ := ih (meterInc src s)
    refine ⟨rate, hrep, fun h => hwf h.meterInc, ?_, fun other hne => ?_⟩
    · rw [hsame, rateOf_meterInc_same, satInc_toNat]
      omega
    · rw [hother other hne, rateOf_meterInc_other s hne]

/-- Settles O34: the counts METER.INC leaves and the flushes report; over a run, the count the outputs lead to. -/
theorem windowReportsExactCount : Obligations.WindowReportsExactCount := by
  refine ⟨fun s src n now later hw hzero hpos hlt hdue hdue' => ?_,
    fun es s t src before window rest w counts hw he hrun hout hsnap hlt hstart => ?_⟩
  · obtain ⟨rate, hrep, hwf, hsame, hother⟩ := repeatExec_meterInc src n s
    rw [hzero, show (0 : Count).toNat = 0 from rfl, Nat.zero_add, Nat.min_eq_left (by omega)] at hsame
    refine ⟨_, { s with rate := [], lastFlush := now, out := s.out ++ [.rateSnapshot now (snapshot rate)] },
      snapshot rate, hrep, congrArg Host.Outcome.next (meterFlush_of_due (s := { s with rate := rate }) hdue), rfl,
      fun c => ?_, fun other c hne => ?_, congrArg Host.Outcome.next (meterFlush_of_due hdue')⟩
    · rw [(hwf hw).mem_snapshot_iff, ← BitVec.toNat_inj, hsame]
      omega
    · rw [snapshot_of_wf (hwf hw), (hwf hw).mem_iff, hother other hne]
  · obtain ⟨new, hnew, hmeters⟩ := runEvents_meters src hw he hrun
    obtain rfl : new = before ++ (window ++ .rateSnapshot w counts :: rest) := by
      apply List.append_cancel_left (as := s.out)
      rw [← hnew, hout]
      simp
    obtain ⟨k, hbefore, hmeters⟩ := meters_split hmeters
    obtain ⟨l, hwindow, hcounts, _⟩ := meters_split hmeters
    obtain rfl : k = 0 := by
      rcases hstart with ⟨rfl, hzero⟩ | ⟨w0, counts0, hlast⟩
      · rw [hzero] at hbefore
        exact hbefore.symm
      · exact meters_of_getLast? hbefore hlast
    rw [meters_window hwindow hsnap (by omega), Nat.zero_add] at hcounts
    exact hcounts

end Sys2Proof.Machine
end

section
/-! SUPPORT. Bytes delivered one after another (30_encoding R70, R71, R78; log entry 9): what a run of them does in
LINE, in SKIP, at the head of a frame and in PAYLOAD, with any clock readings where a record's clock depends on them. -/

namespace Sys2Proof.Machine

/-! ### Runs, event by event -/

theorem runEvents_cons {e : Event} {s t : State} (h : react e s = .next t) (es : List Event) :
    runEvents (e :: es) s = runEvents es t := by
  rw [runEvents, h]

theorem runEvents_append {es : List Event} {s t : State} (h : runEvents es s = .next t) (fs : List Event) :
    runEvents (es ++ fs) s = runEvents fs t := by
  induction es generalizing s with
  | nil =>
    obtain rfl := Host.Outcome.next.inj h
    rfl
  | cons e es ih =>
    obtain ⟨u, hu, hrun⟩ := runEvents_cons_next h
    rw [List.cons_append, runEvents_cons hu, ih hrun]

theorem runEvents_singleton (e : Event) (s : State) : runEvents [e] s = react e s := by
  rw [runEvents]
  cases react e s <;> rfl

theorem react_byte {s : State} (hl : s.life = .run) (b : Byte) (now : Time) :
    react (.byte b now) s = reactByte b now s := if_pos hl

theorem bytesAt_append (now : Time) (bs cs : List Byte) : bytesAt now (bs ++ cs) = bytesAt now bs ++ bytesAt now cs :=
  List.map_append

/-- Bytes at one clock reading, as bytes each with its own. -/
theorem bytesAt_eq_zipWith (now : Time) (bs : List Byte) :
    bytesAt now bs = List.zipWith Event.byte bs (List.replicate bs.length now) := by
  induction bs with
  | nil => rfl
  | cons b bs ih => rw [List.length_cons, List.replicate_succ, List.zipWith_cons_cons, ← ih]; rfl

/-! ### LINE and SKIP -/

/-- An open line takes every byte that is no terminator (R104). -/
theorem runEvents_line {s : State} {bs : List Byte} (now : Time) (hl : s.life = .run) (hp : s.phase = .line)
    (hbs : lineTerm ∉ bs) : runEvents (bytesAt now bs) s = .next { s with lbuf := s.lbuf ++ bs } := by
  induction bs generalizing s with
  | nil => rw [List.append_nil]; rfl
  | cons b bs ih =>
    obtain ⟨hb, hbs⟩ := List.ne_and_not_mem_of_not_mem_cons hbs
    have hreact : react (.byte b now) s = .next { s with lbuf := s.lbuf ++ [b] } := by
      rw [react_byte hl, reactByte_of_line hp, if_neg hb.symm]
      rfl
    refine (runEvents_cons hreact _).trans ((ih (s := { s with lbuf := s.lbuf ++ [b] }) hl hp hbs).trans ?_)
    simp

/-- Fewer bytes than are left to skip lower the count (R115). -/
theorem runEvents_skip {s : State} {bs : List Byte} (now : Time) (hl : s.life = .run) (hp : s.phase = .skip)
    (hlt : bs.length < s.cnt.toNat) :
    runEvents (bytesAt now bs) s = .next { s with cnt := BitVec.ofNat 17 (s.cnt.toNat - bs.length) } := by
  induction bs generalizing s with
  | nil => rw [List.length_nil, Nat.sub_zero, BitVec.ofNat_toNat, BitVec.setWidth_eq]; rfl
  | cons b bs ih =>
    rw [List.length_cons] at hlt
    have hreact : react (.byte b now) s = .next { s with cnt := BitVec.ofNat 17 (s.cnt.toNat - 1) } := by
      rw [react_byte hl, reactByte_of_skip hp]
      exact (exec_skipByte b now (by omega)).trans (by rw [if_neg (by omega)])
    have hcnt : (BitVec.ofNat 17 (s.cnt.toNat - 1)).toNat = s.cnt.toNat - 1 := by
      rw [BitVec.toNat_ofNat, Nat.mod_eq_of_lt (by omega)]
    refine (runEvents_cons hreact _).trans
      ((ih (s := { s with cnt := BitVec.ofNat 17 (s.cnt.toNat - 1) }) hl hp (by rw [hcnt]; omega)).trans ?_)
    rw [hcnt, List.length_cons, Nat.sub_sub, Nat.add_comm 1]

/-- The last byte to skip ends the attempt (R115). -/
theorem react_skip_last {s : State} (b : Byte) (now : Time) (hl : s.life = .run) (hp : s.phase = .skip)
    (hcnt : s.cnt.toNat = 1) : react (.byte b now) s = .next (afterAttempt now [] s) := by
  rw [react_byte hl, reactByte_of_skip hp]
  exact (exec_skipByte b now hcnt.ge).trans (by rw [if_pos hcnt])

/-- As many bytes as are left to skip end the attempt (R115). -/
theorem runEvents_skip_all {s : State} {bs : List Byte} (now : Time) (hl : s.life = .run) (hp : s.phase = .skip)
    (hpos : 1 ≤ bs.length) (hlen : bs.length = s.cnt.toNat) :
    runEvents (bytesAt now bs) s = .next (afterAttempt now [] s) := by
  obtain ⟨init, b, rfl⟩ := (List.eq_nil_or_concat' bs).resolve_left (List.length_pos_iff.mp hpos)
  rw [List.length_append, List.length_singleton] at hlen
  have hcnt : (BitVec.ofNat 17 (s.cnt.toNat - init.length)).toNat = 1 := by
    rw [← hlen, Nat.add_sub_cancel_left]
    rfl
  rw [bytesAt_append, runEvents_append (runEvents_skip now hl hp (by omega))]
  exact (runEvents_singleton (.byte b now) _).trans
    (react_skip_last (s := { s with cnt := BitVec.ofNat 17 (s.cnt.toNat - init.length) }) b now hl hp hcnt)

/-! ### The head of a frame -/

theorem frameBytes_eq (m : Byte) (p : List Byte) (c : Byte) :
    frameBytes m p c = m :: BitVec.ofNat 8 p.length :: BitVec.ofNat 8 (p.length / 256) :: (p ++ [c]) := rfl

/-- The marker and the low length byte, in HUNT (R100, R107). -/
theorem runEvents_marker_lenLo {s : State} (n : Nat) (t₁ t₂ : Time) (hl : s.life = .run) (hp : s.phase = .hunt)
    (es : List Event) :
    runEvents (.byte s.cfg.marker t₁ :: .byte (BitVec.ofNat 8 n) t₂ :: es) s =
      runEvents es { s with len := BitVec.ofNat 16 (n % 256), phase := .len1 } := by
  have hmarker : react (.byte s.cfg.marker t₁) s = .next { s with phase := .len0 } := by
    rw [react_byte hl, reactByte_of_hunt hp, if_pos rfl]
    rfl
  have hlo : react (.byte (BitVec.ofNat 8 n) t₂) { s with phase := .len0 } =
      .next { s with len := BitVec.ofNat 16 (n % 256), phase := .len1 } := by
    refine (react_byte (s := { s with phase := .len0 }) hl _ t₂).trans ((reactByte_of_len0 rfl _ t₂).trans ?_)
    exact (exec_lenLo _ t₂ _).trans (by rw [BitVec.toNat_ofNat])
  rw [runEvents_cons hmarker, runEvents_cons hlo]

/-- The two bytes of a length below `2 ^ 16`, as LEN.HI and LEN.HI.OOB read them. -/
theorem length_of_bytes {n : Nat} (h : n < 65536) :
    n = (BitVec.ofNat 16 (n % 256)).toNat % 256 + 256 * (BitVec.ofNat 8 (n / 256)).toNat := by
  rw [BitVec.toNat_ofNat, BitVec.toNat_ofNat]
  omega

/-- The high length byte of a length in bounds (R108). -/
theorem react_lenHi_inBounds {s : State} {b : Byte} {n : Nat} (t : Time) (hl : s.life = .run) (hp : s.phase = .len1)
    (hn : n = s.len.toNat % 256 + 256 * b.toNat) (hmin : s.cfg.minPayload.toNat ≤ n)
    (hmax : n ≤ s.cfg.maxPayload.toNat) :
    react (.byte b t) s = .next { s with len := BitVec.ofNat 16 n, cnt := 0, xorAcc := 0,
                                         phase := if 1 ≤ n then .payload else .check } := by
  have hadm : s.lenAdmitted b = true := decide_eq_true (by rw [declaredLen_toNat, ← hn]; exact ⟨hmin, hmax⟩)
  rw [react_byte hl, reactByte_of_len1 hp, if_pos hadm]
  exact exec_lenHi t hn

/-- SKIP with a length `n` reported as out of bounds (R109). -/
def State.skipping (s : State) (n : Nat) : State :=
  { s with len := BitVec.ofNat 16 n, cnt := BitVec.ofNat 17 (n + 1), phase := .skip,
           out := s.out ++ [.frameDropped (.lengthOutOfBounds (BitVec.ofNat 16 n))] }

/-- The high length byte of a length out of bounds (R109). -/
theorem react_lenHi_outOfBounds {s : State} {b : Byte} {n : Nat} (t : Time) (hl : s.life = .run) (hp : s.phase = .len1)
    (hn : n = s.len.toNat % 256 + 256 * b.toNat) (hout : n < s.cfg.minPayload.toNat ∨ s.cfg.maxPayload.toNat < n) :
    react (.byte b t) s = .next (s.skipping n) := by
  have hadm : ¬ s.lenAdmitted b = true := by
    intro h
    have hbounds := of_decide_eq_true h
    rw [declaredLen_toNat, ← hn] at hbounds
    omega
  rw [react_byte hl, reactByte_of_len1 hp, if_neg hadm]
  exact exec_lenHiOob t hn

/-- The head of a frame whose length is in bounds opens its payload (R100, R107, R108). -/
theorem runEvents_head_inBounds {s : State} {n : Nat} (t₁ t₂ t₃ : Time) (hl : s.life = .run) (hp : s.phase = .hunt)
    (hmin : s.cfg.minPayload.toNat ≤ n) (hmax : n ≤ s.cfg.maxPayload.toNat) (es : List Event) :
    runEvents (.byte s.cfg.marker t₁ :: .byte (BitVec.ofNat 8 n) t₂ :: .byte (BitVec.ofNat 8 (n / 256)) t₃ :: es) s =
      runEvents es { s with len := BitVec.ofNat 16 n, cnt := 0, xorAcc := 0,
                            phase := if 1 ≤ n then .payload else .check } := by
  have hlt := s.cfg.maxPayload.isLt
  rw [runEvents_marker_lenLo n t₁ t₂ hl hp]
  exact runEvents_cons (react_lenHi_inBounds (s := { s with len := BitVec.ofNat 16 (n % 256), phase := .len1 }) t₃ hl
    rfl (length_of_bytes (by omega)) hmin hmax) es

/-- The head of a frame whose length is out of bounds reports it and opens a skip (R100, R107, R109). -/
theorem runEvents_head_outOfBounds {s : State} {n : Nat} (t₁ t₂ t₃ : Time) (hl : s.life = .run) (hp : s.phase = .hunt)
    (hn : n < 65536) (hout : n < s.cfg.minPayload.toNat ∨ s.cfg.maxPayload.toNat < n) (es : List Event) :
    runEvents (.byte s.cfg.marker t₁ :: .byte (BitVec.ofNat 8 n) t₂ :: .byte (BitVec.ofNat 8 (n / 256)) t₃ :: es) s =
      runEvents es (s.skipping n) := by
  rw [runEvents_marker_lenLo n t₁ t₂ hl hp]
  exact runEvents_cons (react_lenHi_outOfBounds (s := { s with len := BitVec.ofNat 16 (n % 256), phase := .len1 }) t₃ hl
    rfl (length_of_bytes hn) hout) es

/-! ### The payload -/

/-- The buffer with bytes written from cell `a` on. -/
def Memory.fill (m : Memory) (a : Nat) : List Byte → Memory
  | [] => m
  | b :: bs => Memory.fill (m.set a b) (a + 1) bs

theorem Memory.gather_fill {m : Memory} {a : Nat} {p : List Byte} (bs : List Byte) (h : m.gather 0 a = some p) :
    (m.fill a bs).gather 0 (a + bs.length) = some (p ++ bs) := by
  induction bs generalizing m a p with
  | nil => rw [List.append_nil]; exact h
  | cons b bs ih =>
    have hnext := Memory.gather_set_next (v := b) h
    rw [Nat.zero_add] at hnext
    rw [Memory.fill, List.length_cons, Nat.add_comm bs.length, ← Nat.add_assoc, ih hnext, List.append_assoc]
    rfl

theorem Memory.cell_fill_above {m : Memory} {a i : Nat} {bs : List Byte} (h : a + bs.length ≤ i) :
    (m.fill a bs).cell i = m.cell i := by
  induction bs generalizing m a with
  | nil => rfl
  | cons b bs ih =>
    rw [List.length_cons] at h
    rw [Memory.fill, ih (by omega), Memory.cell_set_other (by omega)]

/-- What filling the buffer from its start makes it read as. -/
theorem Memory.fill_zero (m : Memory) (p : List Byte) :
    (m.fill 0 p).gather 0 p.length = some p ∧ ∀ a, p.length ≤ a → (m.fill 0 p).cell a = m.cell a := by
  refine ⟨?_, fun a ha => Memory.cell_fill_above (by omega)⟩
  have h := Memory.gather_fill (m := m) p (rfl : m.gather 0 0 = some [])
  rwa [Nat.zero_add] at h

/-- PAYLOAD stores bytes up to the declared length and then opens the check (R112). -/
theorem runEvents_payload {s : State} {bs : List Byte} {ts : List Time} (hts : ts.length = bs.length)
    (hl : s.life = .run) (hp : s.phase = .payload) (hc : s.cnt.toNat < s.len.toNat)
    (hfit : s.cnt.toNat + bs.length ≤ s.len.toNat) (hmax : s.len.toNat ≤ s.cfg.maxPayload.toNat) :
    runEvents (List.zipWith Event.byte bs ts) s =
      .next { s with pbuf := s.pbuf.fill s.cnt.toNat bs, xorAcc := s.xorAcc ^^^ xor8 bs,
                     cnt := BitVec.ofNat 17 (s.cnt.toNat + bs.length),
                     phase := if s.cnt.toNat + bs.length = s.len.toNat then .check else .payload } := by
  induction bs generalizing s ts with
  | nil =>
    have hcnt : BitVec.ofNat 17 s.cnt.toNat = s.cnt := by rw [BitVec.ofNat_toNat, BitVec.setWidth_eq]
    have hxor : s.xorAcc ^^^ xor8 [] = s.xorAcc := BitVec.xor_zero
    rw [List.length_nil, Nat.add_zero, hcnt, hxor, if_neg hc.ne, ← hp]
    rfl
  | cons b bs ih =>
    obtain ⟨t, ts, rfl⟩ := List.exists_cons_of_length_eq_add_one hts
    rw [List.length_cons] at hfit
    have hlen := s.len.isLt
    have hcnt : (BitVec.ofNat 17 (s.cnt.toNat + 1)).toNat = s.cnt.toNat + 1 := by
      rw [BitVec.toNat_ofNat, Nat.mod_eq_of_lt (by omega)]
    have hreact := (react_byte hl b t).trans ((reactByte_of_payload hp b t).trans (exec_payByte b t (by omega)))
    by_cases hlast : s.cnt.toNat + 1 = s.len.toNat
    · -- the last byte declared
      obtain rfl : bs = [] := List.length_eq_zero_iff.mp (by omega)
      have hxor : xor8 [b] = b := (xor8_cons b []).trans BitVec.xor_zero
      rw [if_pos hlast] at hreact
      rw [List.zipWith_cons_cons, runEvents_cons hreact, List.length_singleton, if_pos hlast, hxor]
      rfl
    · rw [if_neg hlast] at hreact
      rw [List.zipWith_cons_cons, runEvents_cons hreact]
      refine (ih (s := { s with pbuf := s.pbuf.set s.cnt.toNat b, xorAcc := s.xorAcc ^^^ b,
                                cnt := BitVec.ofNat 17 (s.cnt.toNat + 1) })
        (by simpa using hts) hl hp ?_ ?_ hmax).trans ?_
      · rw [hcnt]
        exact lt_of_le_of_ne hc hlast
      · rw [hcnt]
        exact (Nat.add_right_comm ..).le.trans hfit
      · rw [hcnt, List.length_cons, Nat.add_comm bs.length, ← Nat.add_assoc, xor8_cons, ← BitVec.xor_assoc]
        rfl

/-- CHECK with the payload `p` stored from cell 0 on. -/
def State.stored (s : State) (p : List Byte) : State :=
  { s with phase := .check, len := BitVec.ofNat 16 p.length, cnt := BitVec.ofNat 17 p.length, xorAcc := xor8 p,
           pbuf := s.pbuf.fill 0 p }

/-- A whole payload stored after the head of its frame (R108, R112). -/
theorem runEvents_wholePayload {s : State} {p : List Byte} {ts : List Time} (hts : ts.length = p.length)
    (hl : s.life = .run) (hmax : p.length ≤ s.cfg.maxPayload.toNat) :
    runEvents (List.zipWith Event.byte p ts)
        { s with len := BitVec.ofNat 16 p.length, cnt := 0, xorAcc := 0,
                 phase := if 1 ≤ p.length then .payload else .check } = .next (s.stored p) := by
  by_cases hpos : 1 ≤ p.length
  · have hlt := s.cfg.maxPayload.isLt
    have hlen : (BitVec.ofNat 16 p.length).toNat = p.length := by
      rw [BitVec.toNat_ofNat, Nat.mod_eq_of_lt (by omega)]
    have hrun := runEvents_payload (s := { s with len := BitVec.ofNat 16 p.length, cnt := 0, xorAcc := 0,
                                                  phase := .payload }) hts hl rfl
      (hlen.symm ▸ hpos) (by rw [hlen]; exact (Nat.zero_add _).le) (by rw [hlen]; exact hmax)
    rw [if_pos hpos, hrun, hlen, show (0 : BitVec 17).toNat = 0 from rfl, Nat.zero_add, if_pos rfl,
      show (0 : Byte) ^^^ xor8 p = xor8 p from BitVec.zero_xor]
    rfl
  · obtain rfl : p = [] := List.length_eq_zero_iff.mp (by omega)
    rfl

/-- A frame in HUNT with its length in bounds: its payload is stored, and its checksum byte comes next. -/
theorem runEvents_frame {s : State} {p : List Byte} {ts : List Time} (c : Byte) (tc : Time)
    (hts : ts.length = p.length + 3) (hl : s.life = .run) (hp : s.phase = .hunt)
    (hmin : s.cfg.minPayload.toNat ≤ p.length) (hmax : p.length ≤ s.cfg.maxPayload.toNat) :
    runEvents (List.zipWith Event.byte (frameBytes s.cfg.marker p c) (ts ++ [tc])) s =
      exec (.chkByte c tc) (s.stored p) := by
  obtain ⟨t₁, ts, rfl⟩ := List.exists_cons_of_length_eq_add_one hts
  obtain ⟨t₂, ts, rfl⟩ := List.exists_cons_of_length_eq_add_one (by simpa using hts : ts.length = p.length + 1 + 1)
  obtain ⟨t₃, ts, rfl⟩ := List.exists_cons_of_length_eq_add_one (by simpa using hts : ts.length = p.length + 1)
  have hts' : p.length = ts.length := by simpa using hts.symm
  rw [frameBytes_eq, List.cons_append, List.cons_append, List.cons_append, List.zipWith_cons_cons,
    List.zipWith_cons_cons, List.zipWith_cons_cons, runEvents_head_inBounds t₁ t₂ t₃ hl hp hmin hmax,
    List.zipWith_append hts', runEvents_append (runEvents_wholePayload hts'.symm hl hmax)]
  exact (runEvents_singleton (.byte c tc) _).trans
    ((react_byte (s := s.stored p) hl c tc).trans (reactByte_of_check (s := s.stored p) rfl c tc))

/-- The same with all bytes at one clock reading. -/
theorem exec_frame {s : State} {p : List Byte} (c : Byte) (now : Time) (hl : s.life = .run) (hp : s.phase = .hunt)
    (hmin : s.cfg.minPayload.toNat ≤ p.length) (hmax : p.length ≤ s.cfg.maxPayload.toNat) :
    exec (.frame p c now) s = exec (.chkByte c now) (s.stored p) := by
  have hlen : (frameBytes s.cfg.marker p c).length = p.length + 3 + 1 := by simp [frameBytes_eq]
  change runEvents (bytesAt now (frameBytes s.cfg.marker p c)) s = _
  rw [bytesAt_eq_zipWith, hlen, List.replicate_succ']
  exact runEvents_frame c now List.length_replicate hl hp hmin hmax

/-- The checksum byte of a stored payload is judged, and the attempt ends. -/
theorem exec_chkByte_stored {s : State} {p : List Byte} (c : Byte) (now : Time)
    (hmax : p.length ≤ s.cfg.maxPayload.toNat) :
    exec (.chkByte c now) (s.stored p) = .next (endAttempt now (judge (s.stored p) (decodeFrame p c now))) := by
  have hlt := s.cfg.maxPayload.isLt
  have hlen : (s.stored p).len.toNat = p.length := (BitVec.toNat_ofNat ..).trans (Nat.mod_eq_of_lt (by omega))
  have hcnt : (s.stored p).cnt.toNat = p.length := (BitVec.toNat_ofNat ..).trans (Nat.mod_eq_of_lt (by omega))
  exact exec_chkByte c now (hcnt.trans hlen.symm) (by rw [hlen]; exact (Memory.fill_zero s.pbuf p).1)

/-! ### A conforming frame -/

/-- The encoder's payload decodes to the record it was made from (R89, R130). -/
theorem decodeFrame_payloadBytes (src : SourceId) (ts : Time) {v : List Int} (now : Time) (hv : v.all isI8 = true)
    (hn : v.length < 65536) :
    decodeFrame (payloadBytes src ts v) (xor8 (payloadBytes src ts v)) now =
      .ok { source := src, deviceTimestamp := ts, hostReceiveTimestamp := now, samples := v } := by
  have hsrc := source_of_payload src ts v []
  have hts := timestamp_of_payload src ts v []
  have hcount := count_of_payload src ts v [] hn
  have hsamples := samples_of_payload src ts v [] hv
  rw [List.append_nil] at hsrc hts hcount hsamples
  rw [decodeFrame_of_whole now rfl, sourceField, timestampField, sampleCountField, samplesField, hsrc, hts, hcount,
    hsamples]
  rw [sampleCountField, hcount, length_payloadBytes]

/-- The checksum byte of a conforming frame of an allowed source: one record, counted, and the attempt ends. -/
theorem exec_chkByte_conforming {s : State} {src : SourceId} {ts : Time} {v : List Int} (now : Time)
    (hv : v.all isI8 = true) (hmax : 16 + v.length ≤ s.cfg.maxPayload.toNat)
    (hallow : ∃ e ∈ s.cfg.allow, e.valid = true ∧ e.id = src) :
    exec (.chkByte (xor8 (payloadBytes src ts v)) now) (s.stored (payloadBytes src ts v)) =
      .next (afterAttempt now
        [.frameAccepted, .record { source := src, deviceTimestamp := ts, hostReceiveTimestamp := now, samples := v }]
        (meterInc src (s.stored (payloadBytes src ts v)))) := by
  have hlt := s.cfg.maxPayload.isLt
  rw [exec_chkByte_stored _ now (by rw [length_payloadBytes]; exact hmax),
    decodeFrame_payloadBytes src ts now hv (by omega),
    endAttempt_judge_allowed now (filterSource_iff.mpr (by exact hallow))]

/-- The attempt end of a stored frame reads nothing of the frame. -/
theorem afterAttempt_meterInc_stored (now : Time) (os : List Output) (src : SourceId) (s : State) (p : List Byte) :
    afterAttempt now os (meterInc src (s.stored p)) =
      { afterAttempt now os (meterInc src s) with pbuf := s.pbuf.fill 0 p } := rfl

/-! ### A text line -/

/-- HUNT, canonical, after an attempt that has emitted `os` and neither flushes nor stops. -/
def State.reported (s : State) (os : List Output) : State :=
  { s with phase := .hunt, len := 0, cnt := 0, xorAcc := 0, lbuf := [], out := s.out ++ os }

/-- An attempt end with no stop pending and the window open adds the report only. -/
theorem afterAttempt_of_open {now : Time} {s : State} (os : List Output) (hstop : s.stopPending = false)
    (hopen : flushDue now s.lastFlush s.cfg.rateWindowMs = false) : afterAttempt now os s = s.reported os := by
  obtain ⟨hrate, hlast, hout⟩ := flush_of_not_due (Bool.eq_false_iff.mp hopen)
  have hstop' : ¬ s.stopPending = true := Bool.eq_false_iff.mp hstop
  rw [afterAttempt, hrate, hlast, hout, lifeAfter, if_neg hstop', stopOutputs, if_neg hstop', List.append_nil]
  rfl

/-- A line that begins with text: its bytes, then its terminator or a TIMEOUT (R101, R104 to R106). -/
theorem exec_textLine_text {s : State} {x : Byte} {ys : List Byte} (ended : Bool) (now : Time) (hl : s.life = .run)
    (hp : s.phase = .hunt) (hm : x ≠ s.cfg.marker) (hx : x ≠ lineTerm) (hys : lineTerm ∉ ys) :
    exec (.textLine x ys ended now) s =
      .next (afterAttempt now [.desync (x :: (ys ++ (if ended then [lineTerm] else []))) ended] s) := by
  have hopen : react (.byte x now) s = .next { s with lbuf := [x], phase := .line } := by
    rw [react_byte hl, reactByte_of_hunt hp, if_neg hm, if_neg hx]
    rfl
  have hline : runEvents (bytesAt now (x :: ys)) s = .next { s with lbuf := x :: ys, phase := .line } :=
    (runEvents_cons hopen _).trans (runEvents_line now hl rfl hys)
  have hb : ¬ (x == lineTerm) = true := by simpa using hx
  change runEvents (textEvents x ys ended now) s = _
  rw [textEvents, textBytes, if_neg hb, ← List.cons_append, bytesAt_append, List.append_assoc, runEvents_append hline]
  cases ended with
  | true =>
    have hend := react_byte (s := { s with lbuf := x :: ys, phase := .line }) hl lineTerm now
    rw [reactByte_of_line (s := { s with lbuf := x :: ys, phase := .line }) rfl, if_pos rfl] at hend
    exact (runEvents_singleton (.byte lineTerm now) _).trans (hend.trans (exec_lineEol lineTerm now _))
  | false =>
    have hend := react_timeout (s := { s with lbuf := x :: ys, phase := .line }) hl now
    refine (runEvents_singleton (.timeout now) _).trans (hend.trans ?_)
    rw [if_neg Bool.false_ne_true, List.append_nil]
    rfl

/-- A line that is its terminator alone (R102). -/
theorem exec_textLine_eol {s : State} (now : Time) (hl : s.life = .run) (hp : s.phase = .hunt)
    (hm : lineTerm ≠ s.cfg.marker) :
    exec (.textLine lineTerm [] true now) s = .next (afterAttempt now [.desync [lineTerm] true] s) := by
  change runEvents [.byte lineTerm now] s = _
  rw [runEvents_singleton, react_byte hl, reactByte_of_hunt hp, if_neg hm, if_pos rfl]
  exact exec_huntEol lineTerm now s

end Sys2Proof.Machine
end

section
/-! The obligations about byte patterns delivered whole (30_encoding R70, R71, R78, R89, 40_scanner R109, R115, R119,
R120; log entry 9). -/

namespace Sys2Proof.Machine

/-- Settles O36: the head, the payload and the checksum byte of the encoder's frame, each at its own clock reading. -/
theorem conformingFrameYieldsOneRecord : Obligations.ConformingFrameYieldsOneRecord := by
  intro s src ts v nows nowLast hl hp hv hmin hmax hallow hnows
  have hlen := length_payloadBytes src ts v
  have hrun := runEvents_frame (s := s) (p := payloadBytes src ts v) (xor8 (payloadBytes src ts v)) nowLast
    (by rw [hnows, hlen]; omega) hl hp (by rw [hlen]; exact hmin) (by rw [hlen]; exact hmax)
  rw [exec_chkByte_conforming nowLast hv hmax hallow, afterAttempt_meterInc_stored] at hrun
  exact ⟨_, hrun, rfl, rfl, rfl, rfl, rfl⟩

/-- Settles O35: the frame's head and payload, then what its checksum byte leaves alone. -/
theorem deliveredFrameIsStoredAndJudged : Obligations.DeliveredFrameIsStoredAndJudged := by
  intro s p c now hl hp hmin hmax
  have hframe := exec_frame c now hl hp hmin hmax
  obtain ⟨hgather, habove⟩ := Memory.fill_zero s.pbuf p
  obtain ⟨_, _, _, hpbuf, hinput⟩ := judge_frame (s.stored p) (decodeFrame p c now)
  exact ⟨s.pbuf.fill 0 p, hframe, hgather, habove, _, hframe.trans (exec_chkByte_stored c now hmax),
    endAttempt_phase .., (endAttempt_pbuf ..).trans hpbuf, (endAttempt_cfg ..).trans (judge_cfg ..),
    (endAttempt_input ..).trans hinput⟩

/-- Settles O37: PAYLOAD from its first byte to its last. -/
theorem deliveredPayloadFillsBuffer : Obligations.DeliveredPayloadFillsBuffer := by
  intro s src ts v now hl hp hcnt hxor hlen hmax
  have hbytes := length_payloadBytes src ts v
  obtain ⟨hgather, habove⟩ := Memory.fill_zero s.pbuf (payloadBytes src ts v)
  rw [hbytes] at hgather habove
  have h0 : s.cnt.toNat = 0 := by rw [hcnt]; rfl
  refine ⟨s.pbuf.fill 0 (payloadBytes src ts v), ?_, hgather, habove⟩
  change runEvents (bytesAt now (payloadBytes src ts v)) s = _
  rw [bytesAt_eq_zipWith, runEvents_payload List.length_replicate hl hp (by omega) (by omega) hmax, h0, hbytes, hxor,
    Nat.zero_add, if_pos hlen.symm, show (0 : Byte) ^^^ xor8 (payloadBytes src ts v) = _ from BitVec.zero_xor]

/-- Settles O38: a line that begins with text, and a line that is its terminator. -/
theorem deliveredTextLineIsSurfaced : Obligations.DeliveredTextLineIsSurfaced := by
  refine fun s x ys ended now hl hp hm hys => ⟨fun hx => exec_textLine_text ended now hl hp hm hx hys, fun hx => ?_⟩
  subst hx
  exact exec_textLine_eol now hl hp hm

/-- Settles O39: the line's attempt ends in HUNT with the session running, where the frame yields its record. -/
theorem frameAfterEndedLineIsRecovered : Obligations.FrameAfterEndedLineIsRecovered := by
  intro s x ys ended src ts v now hl hp hstop hopen hm hys hterm hv hmin hmax hallow
  have hlen := length_payloadBytes src ts v
  obtain ⟨d, hd⟩ : ∃ d : Output, d =
      .desync (if x = lineTerm then [lineTerm] else x :: (ys ++ (if ended then [lineTerm] else []))) ended := ⟨_, rfl⟩
  have hline : exec (.textLine x ys ended now) s = .next (s.reported [d]) := by
    rw [hd, ← afterAttempt_of_open _ hstop hopen]
    by_cases hx : x = lineTerm
    · obtain ⟨rfl, rfl⟩ := hterm hx
      subst hx
      rw [if_pos rfl]
      exact exec_textLine_eol now hl hp hm
    · rw [if_neg hx]
      exact exec_textLine_text ended now hl hp hm hx hys
  have hframe := (exec_frame (s := s.reported [d]) (xor8 (payloadBytes src ts v)) now hl rfl
    (by rw [hlen]; exact hmin) (by rw [hlen]; exact hmax)).trans (exec_chkByte_conforming now hv hmax hallow)
  rw [afterAttempt_meterInc_stored, afterAttempt_of_open (s := meterInc src (s.reported [d])) _ hstop hopen] at hframe
  have hthen : ∀ i, execThen (.textLine x ys ended now) i s = exec i (s.reported [d]) := fun i => by
    rw [execThen, hline]
  refine ⟨_, (hthen _).trans hframe, ?_, rfl, hl, rfl⟩
  rw [← hd]
  exact List.append_assoc ..

/-- Settles O40: every byte of the frame extends the line. -/
theorem openLineSwallowsFrame : Obligations.OpenLineSwallowsFrame :=
  fun _ _ _ now hl hp hterm => runEvents_line now hl hp hterm

/-- Settles O41: the head reports the length, and the skip takes the payload and its checksum byte. -/
theorem honestOutOfBoundsFrameIsSkippedWhole : Obligations.HonestOutOfBoundsFrameIsSkippedWhole := by
  intro s p c now hl hp hlen hout
  have hcnt : (p ++ [c]).length = (BitVec.ofNat 17 (p.length + 1)).toNat := by
    rw [BitVec.toNat_ofNat, Nat.mod_eq_of_lt (by omega), List.length_append, List.length_singleton]
  change runEvents (bytesAt now (frameBytes s.cfg.marker p c)) s = _
  rw [frameBytes_eq]
  refine (runEvents_head_outOfBounds now now now hl hp hlen hout _).trans
    ((runEvents_skip_all (s := s.skipping p.length) now hl rfl (by simp) hcnt).trans ?_)
  rw [← endAttempt_eq_afterAttempt, ← endAttempt_emit]
  rfl

/-- Settles O42: fewer bytes than `cnt`, and exactly as many. -/
theorem skipDiscardsUnexaminedBytes : Obligations.SkipDiscardsUnexaminedBytes :=
  fun _ _ now hl hp => ⟨runEvents_skip now hl hp, runEvents_skip_all now hl hp⟩

end Sys2Proof.Machine
end
